-- ==== Sys2Proof/Word.lean ====
section
/-! DEFINITION. The words of XCORE: the widths the spec gives its registers, fields and bytes
(00_scope.md R7, R8; 10_state.md R21-R34; 20_memory.md R50). -/

namespace Sys2Proof

/-- One buffer byte (10_state.md R35, R36). -/
abbrev Byte := BitVec 8

/-- One host-port word: WORD = 32 bits (00_scope.md R7). -/
abbrev Word := BitVec 32

/-- A full register A, B or R: 128 bits (10_state.md R21-R23). -/
abbrev Wide := BitVec 128

/-- A byte offset from BASE: 12 bits (20_memory.md R50). -/
abbrev Offset := BitVec 12

end Sys2Proof
end

