-- ==== Sys2Proof/Config.lean ====
section
/-! DEFINITION. What is fixed when a block is built (00_scope.md R7, 10_state.md R38), and the free
values the spec leaves open (70_reset_and_hazards.md R190). The values of the default
parameters stand in Sys2Proof/Machine/Defaults.lean. LATENCY has no field: no rule depends on it
and a model uses no time (70_reset_and_hazards.md R196). -/

namespace Sys2Proof

/-- BUF_BYTES, the capacity of IBUF and of OBUF (00_scope.md R7). -/
def bufBytes : Nat := 64

/-- RADIX, the base of the B59 text (00_scope.md R7). -/
def radix : Nat := 59

/-- One cell of VL_TABLE: the pattern p and the mask m (41_varlen.md R120). -/
structure VlCell where
  pattern : Byte
  mask : Byte
  deriving DecidableEq, Repr

/-- The two cells of one record length: column q = 0 and column q = 1 (41_varlen.md R120). -/
structure VlRow where
  q0 : VlCell
  q1 : VlCell
  deriving DecidableEq, Repr

/-- The OPEN parameters of a built block (00_scope.md R7). The checks a built block's parameters
pass are `Config.wf` (Sys2Proof/WellFormed.lean). -/
structure Config where
  /-- BASE: where the host sees the register window (20_memory.md R53). -/
  base : Nat
  /-- VL_TABLE: row k holds the cells of record length L = 4 + k (41_varlen.md R120). -/
  vlTable : List VlRow
  /-- B59_ALPHABET: entry d is the character of digit d (42_base59.md R140). -/
  alphabet : List Byte
  /-- B59_ALIAS: characters outside the alphabet and the digits they fold to (42_base59.md R140). -/
  aliasMap : List (Byte × Nat)
  deriving DecidableEq, Repr

/-- The UNSPECIFIED bytes of the buffers, one free value for each byte drawn at a reset
(70_reset_and_hazards.md R190; 93_implementation_defined.md I3). It has no body, so a claim that
mentions it holds for every draw. DESIGN CHOICE of form, log entry 2. -/
opaque Config.freeByte : Nat → Byte

end Sys2Proof
end

