-- ==== Sys2Proof/Machine/VlHeader.lean ====
section
/-! DEFINITION. Header matching of the VLC unit (41_varlen.md R121, R124): the mode of a leading
byte, the cells of VL_TABLE, and the scan for the record length. The checks of WellFormed and both
VLC commands use it. -/

namespace Sys2Proof.Machine

/-- L_MIN, the shortest record (00_scope.md R7). -/
def lMin : Nat := 4

/-- L_MAX, the longest record (00_scope.md R7). -/
def lMax : Nat := 16

/-- The mode function Q: is the top nibble non-zero (41_varlen.md R121; 90_conflicts.md C1)? -/
def modeQ (b : Byte) : Bool := (b &&& 0xF0#8) != 0#8

/-- The cell of a row in column q (41_varlen.md R120). -/
def cellOf (row : VlRow) : Bool → VlCell
  | false => row.q0
  | true => row.q1

/-- Does a byte carry a cell (41_varlen.md R120)? -/
def carries (b : Byte) (c : VlCell) : Bool := (b &&& c.mask) == c.pattern

/-- VL[L][q], where the table has a row of length L (41_varlen.md R120). -/
def vlCell? (table : List VlRow) (L : Nat) (q : Bool) : Option VlCell :=
  if L < lMin then none else (table[L - lMin]?).map (cellOf · q)

/-- The scan of R124 over the rows that are left, the first of them of length L. -/
def vlScan (b : Byte) : Nat → List VlRow → Option (Nat × VlCell)
  | _, [] => none
  | L, row :: rows =>
    let c := cellOf row (modeQ b)
    if carries b c then some (L, c) else vlScan b (L + 1) rows

/-- vlheader: the first length, shortest first, whose cell the byte carries (41_varlen.md R124). -/
def vlheader (table : List VlRow) (b : Byte) : Option (Nat × VlCell) := vlScan b lMin table

end Sys2Proof.Machine
end

