-- ==== Sys2Proof/Syntax.lean ====
section
/-! DEFINITION. The commands of XCORE: one constructor for each row of spec/opcode_table.json
(30_encoding.md R72). Operands are implicit (R73) but for the shift amount SHAMT, an unsigned 7-bit
field that is neither scaled nor reduced (R73), so every term of the type is a legal command. -/

namespace Sys2Proof

/-- A command word that the block performs (00_scope.md R3). -/
inductive Instr where
  | add64 | add128
  | sub64 | sub128
  | mul64 | mul128
  | div64 | div128
  | shl64 (shamt : BitVec 7) | shl128 (shamt : BitVec 7)
  | shr64 (shamt : BitVec 7) | shr128 (shamt : BitVec 7)
  | and64 | and128
  | or64 | or128
  | xor64 | xor128
  | nop
  | vlenc
  | vldec
  | b59enc
  | b59dec
  | clrerr
  deriving DecidableEq, Repr

end Sys2Proof
end

