-- ==== Sys2Proof/WellFormed.lean ====
section
/-! DEFINITION. Well-formedness: the legality of a command word, said in the four clauses of
30_encoding.md R74 and apart from the decoder, and the checks a built block's parameters pass
(41_varlen.md R122, 42_base59.md R140, 20_memory.md R53). A term of Instr needs no check of its own:
its one operand is a 7-bit field and every amount 0..127 is legal (40_wideint.md R105). -/

namespace Sys2Proof

/-! ## Command words (30_encoding.md R74) -/

/-- The WIDE opcodes, 0x01-0x09 (30_encoding.md R72). -/
def wideOpcodes : List (BitVec 6) := [0x01, 0x02, 0x03, 0x04, 0x05, 0x06, 0x07, 0x08, 0x09]

/-- The shift opcodes, SHL and SHR (30_encoding.md R72). -/
def shiftOpcodes : List (BitVec 6) := [0x05, 0x06]

/-- Every opcode of the opcode map (30_encoding.md R72). -/
def listedOpcodes : List (BitVec 6) :=
  0x00 :: wideOpcodes ++ [0x10, 0x11, 0x12, 0x13, 0x3F]

/-- Clause 1 of R74: the reserved bits are 0. -/
def reservedZero (c : Word) : Bool := c.extractLsb' 15 17 == 0 && c.extractLsb' 7 1 == 0

/-- Clause 2 of R74: OP is listed. -/
def opListed (c : Word) : Bool := listedOpcodes.contains (c.extractLsb' 0 6)

/-- Clause 3 of R74: W = 0 unless OP is a WIDE opcode. -/
def widthAllowed (c : Word) : Bool :=
  c.extractLsb' 6 1 == 0 || wideOpcodes.contains (c.extractLsb' 0 6)

/-- Clause 4 of R74: SHAMT = 0 unless OP is SHL or SHR. -/
def shamtAllowed (c : Word) : Bool :=
  c.extractLsb' 8 7 == 0 || shiftOpcodes.contains (c.extractLsb' 0 6)

/-- A command word is legal when all four clauses hold (30_encoding.md R74). -/
def legalWord (c : Word) : Bool :=
  reservedZero c && opListed c && widthAllowed c && shamtAllowed c

/-! ## Parameters -/

/-- 13 lengths, two cells each (41_varlen.md R120). -/
def Config.tableComplete (c : Config) : Bool := c.vlTable.length == 13

/-- A cell's pattern lies inside its mask. -/
def VlCell.inside (c : VlCell) : Bool := (c.pattern &&& ~~~c.mask) == 0#8

/-- WF1: every pattern lies inside its mask (41_varlen.md R122). -/
def Config.wf1 (c : Config) : Bool := c.vlTable.all fun row => row.q0.inside && row.q1.inside

/-- WF2: the full-record marker 0x01 is never matched (41_varlen.md R122). -/
def Config.wf2 (c : Config) : Bool := (Machine.vlheader c.vlTable 0x01#8).isNone

/-- WF3: 0x1C heads a record of length 4 (41_varlen.md R122). -/
def Config.wf3 (c : Config) : Bool :=
  match Machine.vlheader c.vlTable 0x1C#8 with
  | some (L, _) => L == 4
  | none => false

/-- 59 distinct characters (42_base59.md R140). -/
def Config.alphabetOk (c : Config) : Bool :=
  c.alphabet.length == radix && decide c.alphabet.Nodup

/-- A partial map from bytes outside the alphabet to digits 0..58 (42_base59.md R140). Each key
stands once, so that the list is a map. -/
def Config.aliasOk (c : Config) : Bool :=
  decide (c.aliasMap.map Prod.fst).Nodup
    && c.aliasMap.all fun e => !c.alphabet.contains e.1 && decide (e.2 < radix)

/-- BASE is aligned to 4096 bytes (20_memory.md R53). -/
def Config.baseOk (c : Config) : Bool := c.base % 4096 == 0

/-- Every check the spec makes of a built block's parameters (10_state.md R38). -/
def Config.wf (c : Config) : Bool :=
  c.tableComplete && c.wf1 && c.wf2 && c.wf3 && c.alphabetOk && c.aliasOk && c.baseOk

end Sys2Proof
end

