-- ==== Sys2Proof/Decode.lean ====
section
/-! DEFINITION. The decoder, total on all 2^32 words and rejecting by name (30_encoding.md R75), and
the encoder (R77), both written from the opcode map (R72) and the field layout (R73). The opcode
table's rows stand here as (mnemonic, match, mask), letter for letter. -/

namespace Sys2Proof

/-! ## The opcode map (30_encoding.md R72) -/

/-- The fifteen opcodes. -/
inductive Op where
  | nop | add | sub | mul | div | shl | shr | and | or | xor
  | vlenc | vldec | b59enc | b59dec | clrerr
  deriving DecidableEq, Repr

/-- The number of an opcode (30_encoding.md R72). -/
def Op.code : Op → BitVec 6
  | .nop => 0x00
  | .add => 0x01
  | .sub => 0x02
  | .mul => 0x03
  | .div => 0x04
  | .shl => 0x05
  | .shr => 0x06
  | .and => 0x07
  | .or => 0x08
  | .xor => 0x09
  | .vlenc => 0x10
  | .vldec => 0x11
  | .b59enc => 0x12
  | .b59dec => 0x13
  | .clrerr => 0x3F

/-- The opcode of a number; every other number is reserved (30_encoding.md R72). -/
def Op.ofCode? (v : BitVec 6) : Option Op :=
  match v.toNat with
  | 0x00 => some .nop
  | 0x01 => some .add
  | 0x02 => some .sub
  | 0x03 => some .mul
  | 0x04 => some .div
  | 0x05 => some .shl
  | 0x06 => some .shr
  | 0x07 => some .and
  | 0x08 => some .or
  | 0x09 => some .xor
  | 0x10 => some .vlenc
  | 0x11 => some .vldec
  | 0x12 => some .b59enc
  | 0x13 => some .b59dec
  | 0x3F => some .clrerr
  | _ => none

/-- A WIDE opcode, 0x01-0x09: the only ones that may have W = 1 (30_encoding.md R74). -/
def Op.isWide : Op → Bool
  | .add | .sub | .mul | .div | .shl | .shr | .and | .or | .xor => true
  | .nop | .vlenc | .vldec | .b59enc | .b59dec | .clrerr => false

/-- SHL and SHR: the only ones that may have a non-zero SHAMT (30_encoding.md R74). -/
def Op.isShift : Op → Bool
  | .shl | .shr => true
  | .nop | .add | .sub | .mul | .div | .and | .or | .xor
  | .vlenc | .vldec | .b59enc | .b59dec | .clrerr => false

/-! ## Fields (30_encoding.md R73) -/

/-- OP = c[5:0]. -/
def opField (c : Word) : BitVec 6 := c.extractLsb' 0 6

/-- W = c[6]. -/
def wField (c : Word) : Bool := c.getLsbD 6

/-- SHAMT = c[14:8]. -/
def shamtField (c : Word) : BitVec 7 := c.extractLsb' 8 7

/-! ## The decoder (30_encoding.md R75) -/

/-- Why a word is no command: the four tests of R75, in its order. Each leads to IllegalCommand
(60_exceptions.md R171). -/
inductive Illegal where
  | reservedBits
  | reservedOpcode
  | widthOnUnitCommand
  | shamtOnNonShift
  deriving DecidableEq, Repr

/-- The command that a legal (OP, W, SHAMT) names. W is meant for WIDE opcodes and SHAMT for shifts;
the decoder has checked that they are 0 elsewhere. -/
def assemble : Op → Bool → BitVec 7 → Instr
  | .nop, _, _ => .nop
  | .add, false, _ => .add64
  | .add, true, _ => .add128
  | .sub, false, _ => .sub64
  | .sub, true, _ => .sub128
  | .mul, false, _ => .mul64
  | .mul, true, _ => .mul128
  | .div, false, _ => .div64
  | .div, true, _ => .div128
  | .shl, false, n => .shl64 n
  | .shl, true, n => .shl128 n
  | .shr, false, n => .shr64 n
  | .shr, true, n => .shr128 n
  | .and, false, _ => .and64
  | .and, true, _ => .and128
  | .or, false, _ => .or64
  | .or, true, _ => .or128
  | .xor, false, _ => .xor64
  | .xor, true, _ => .xor128
  | .vlenc, _, _ => .vlenc
  | .vldec, _, _ => .vldec
  | .b59enc, _, _ => .b59enc
  | .b59dec, _, _ => .b59dec
  | .clrerr, _, _ => .clrerr

/-- decode (30_encoding.md R75). -/
def decode (c : Word) : Except Illegal Instr :=
  if c.extractLsb' 15 17 ≠ 0#17 ∨ c.getLsbD 7 = true then .error .reservedBits
  else
    match Op.ofCode? (opField c) with
    | none => .error .reservedOpcode
    | some op =>
      if wField c && !op.isWide then .error .widthOnUnitCommand
      else if shamtField c != 0#7 && !op.isShift then .error .shamtOnNonShift
      else .ok (assemble op (wField c) (shamtField c))

/-! ## The encoder (30_encoding.md R77) -/

/-- The opcode of a command. -/
def Instr.op : Instr → Op
  | .add64 | .add128 => .add
  | .sub64 | .sub128 => .sub
  | .mul64 | .mul128 => .mul
  | .div64 | .div128 => .div
  | .shl64 _ | .shl128 _ => .shl
  | .shr64 _ | .shr128 _ => .shr
  | .and64 | .and128 => .and
  | .or64 | .or128 => .or
  | .xor64 | .xor128 => .xor
  | .nop => .nop
  | .vlenc => .vlenc
  | .vldec => .vldec
  | .b59enc => .b59enc
  | .b59dec => .b59dec
  | .clrerr => .clrerr

/-- The W bit of a command: 1 for a 128-bit form. -/
def Instr.w : Instr → Bool
  | .add128 | .sub128 | .mul128 | .div128 | .shl128 _ | .shr128 _ | .and128 | .or128 | .xor128 => true
  | .add64 | .sub64 | .mul64 | .div64 | .shl64 _ | .shr64 _ | .and64 | .or64 | .xor64
  | .nop | .vlenc | .vldec | .b59enc | .b59dec | .clrerr => false

/-- The SHAMT field of a command: 0 unless it is a shift. -/
def Instr.shamt : Instr → BitVec 7
  | .shl64 n | .shl128 n | .shr64 n | .shr128 n => n
  | .add64 | .add128 | .sub64 | .sub128 | .mul64 | .mul128 | .div64 | .div128
  | .and64 | .and128 | .or64 | .or128 | .xor64 | .xor128
  | .nop | .vlenc | .vldec | .b59enc | .b59dec | .clrerr => 0#7

/-- enc(M.w #n) = OP(M) | (w = 128 ? 1 : 0) << 6 | n << 8 (30_encoding.md R77). -/
def encode (i : Instr) : Word :=
  i.op.code.setWidth 32 ||| ((BitVec.ofBool i.w).setWidth 32 <<< 6) ||| (i.shamt.setWidth 32 <<< 8)

/-! ## Mnemonics and the opcode table (30_encoding.md R77, spec/opcode_table.json) -/

/-- The mnemonic of a command, its width suffix included (30_encoding.md R77). -/
def Instr.mnemonic : Instr → String
  | .add64 => "ADD.64"
  | .add128 => "ADD.128"
  | .sub64 => "SUB.64"
  | .sub128 => "SUB.128"
  | .mul64 => "MUL.64"
  | .mul128 => "MUL.128"
  | .div64 => "DIV.64"
  | .div128 => "DIV.128"
  | .shl64 _ => "SHL.64"
  | .shl128 _ => "SHL.128"
  | .shr64 _ => "SHR.64"
  | .shr128 _ => "SHR.128"
  | .and64 => "AND.64"
  | .and128 => "AND.128"
  | .or64 => "OR.64"
  | .or128 => "OR.128"
  | .xor64 => "XOR.64"
  | .xor128 => "XOR.128"
  | .nop => "NOP"
  | .vlenc => "VLENC"
  | .vldec => "VLDEC"
  | .b59enc => "B59ENC"
  | .b59dec => "B59DEC"
  | .clrerr => "CLRERR"

/-- One row of the opcode table: a word c is the row's when `c & mask = bits` (30_encoding.md R75). -/
structure OpRow where
  mnemonic : String
  bits : Word
  mask : Word
  deriving DecidableEq, Repr

/-- Is a word this row's? -/
def OpRow.covers (row : OpRow) (c : Word) : Bool := (c &&& row.mask) == row.bits

/-- spec/opcode_table.json, its mnemonic, match and mask columns, in its order. -/
def opcodeTable : List OpRow :=
  [ ⟨"ADD.64", 0x00000001, 0xFFFFFFFF⟩, ⟨"ADD.128", 0x00000041, 0xFFFFFFFF⟩,
    ⟨"SUB.64", 0x00000002, 0xFFFFFFFF⟩, ⟨"SUB.128", 0x00000042, 0xFFFFFFFF⟩,
    ⟨"MUL.64", 0x00000003, 0xFFFFFFFF⟩, ⟨"MUL.128", 0x00000043, 0xFFFFFFFF⟩,
    ⟨"DIV.64", 0x00000004, 0xFFFFFFFF⟩, ⟨"DIV.128", 0x00000044, 0xFFFFFFFF⟩ ]
  ++
  [ ⟨"SHL.64", 0x00000005, 0xFFFF80FF⟩, ⟨"SHL.128", 0x00000045, 0xFFFF80FF⟩,
    ⟨"SHR.64", 0x00000006, 0xFFFF80FF⟩, ⟨"SHR.128", 0x00000046, 0xFFFF80FF⟩,
    ⟨"AND.64", 0x00000007, 0xFFFFFFFF⟩, ⟨"AND.128", 0x00000047, 0xFFFFFFFF⟩,
    ⟨"OR.64", 0x00000008, 0xFFFFFFFF⟩, ⟨"OR.128", 0x00000048, 0xFFFFFFFF⟩ ]
  ++
  [ ⟨"XOR.64", 0x00000009, 0xFFFFFFFF⟩, ⟨"XOR.128", 0x00000049, 0xFFFFFFFF⟩,
    ⟨"NOP", 0x00000000, 0xFFFFFFFF⟩, ⟨"VLENC", 0x00000010, 0xFFFFFFFF⟩,
    ⟨"VLDEC", 0x00000011, 0xFFFFFFFF⟩, ⟨"B59ENC", 0x00000012, 0xFFFFFFFF⟩,
    ⟨"B59DEC", 0x00000013, 0xFFFFFFFF⟩, ⟨"CLRERR", 0x0000003F, 0xFFFFFFFF⟩ ]

/-- What the decoder reads from an opcode-table word of `nbits` bits. A command is one 32-bit word
(30_encoding.md R70), given to the port as a number, so bit k of the number is bit k of the word; a
number that needs more than 32 bits is no command word. -/
def decodeTableWord (nbits w : Nat) : Option Instr :=
  let v := w % 2 ^ nbits
  if v < 2 ^ 32 then
    match decode (BitVec.ofNat 32 v) with
    | .ok i => some i
    | .error _ => none
  else none

end Sys2Proof
end

