-- ==== Sys2Proof/Machine/Defaults.lean ====
section
/-! DEFINITION. The default parameters the spec gives a model when no others are given: T_cand
(41_varlen.md R123), ALPHA_cand (42_base59.md R141, code list in 95_test_vectors.md section 1) and
the empty look-alike map (42_base59.md R141). The spec marks the two tables as general
knowledge (93_implementation_defined.md I1). -/

namespace Sys2Proof.Machine

/-- A table row from its four bytes. -/
def vlRow (p0 m0 p1 m1 : Byte) : VlRow := ⟨⟨p0, m0⟩, ⟨p1, m1⟩⟩

/-- T_cand, lengths 4 to 16 in order (41_varlen.md R123). -/
def tCand : List VlRow :=
  [ vlRow 0x1C 0xFC 0x1C 0xFC,    -- 4
    vlRow 0x18 0xFC 0x18 0xFC,    -- 5
    vlRow 0x14 0xFC 0x14 0xFC,    -- 6
    vlRow 0x10 0xFC 0x10 0xFC,    -- 7
    vlRow 0x04 0xFC 0x40 0xC0,    -- 8
    vlRow 0x0A 0xFE 0xA0 0xE0,    -- 9
    vlRow 0x08 0xFE 0x80 0xE0 ]   -- 10
  ++
  [ vlRow 0x02 0xFF 0x20 0xF0,    -- 11
    vlRow 0x03 0xFF 0x30 0xF0,    -- 12
    vlRow 0x0C 0xFF 0xC0 0xF0,    -- 13
    vlRow 0x0D 0xFF 0xD0 0xF0,    -- 14
    vlRow 0x0E 0xFF 0xE0 0xF0,    -- 15
    vlRow 0x0F 0xFF 0xF0 0xF0 ]   -- 16

/-- ALPHA_cand, digits 0 to 58 in order (42_base59.md R141; 95_test_vectors.md section 1). -/
def alphaCand : List Byte :=
  [0x7A, 0x47, 0x4C, 0x55, 0x41, 0x43, 0x32, 0x45, 0x77, 0x64]
  ++ [0x44, 0x52, 0x72, 0x6B, 0x57, 0x42, 0x61, 0x74, 0x6D, 0x73]
  ++ [0x63, 0x78, 0x79, 0x59, 0x6C, 0x67, 0x36, 0x6A, 0x68, 0x50]
  ++ [0x37, 0x4B, 0x35, 0x33, 0x54, 0x69, 0x62, 0x65, 0x6E, 0x5A]
  ++ [0x70, 0x4D, 0x56, 0x75, 0x76, 0x6F, 0x4F, 0x39, 0x48, 0x34]
  ++ [0x58, 0x53, 0x51, 0x71, 0x38, 0x46, 0x66, 0x4A, 0x4E]

/-- The parameters a model uses when no others are given. BASE has no default in the spec:
DESIGN CHOICE 0, log entry 10. -/
def defaultConfig : Config :=
  { base := 0, vlTable := tCand, alphabet := alphaCand, aliasMap := [] }

end Sys2Proof.Machine
end

