-- ==== Sys2Proof/Machine/State.lean ====
section
/-! DEFINITION. The state of XCORE as plain data (10_state.md), the host port's accesses and answers
(20_memory.md R50), the error kinds (60_exceptions.md R170), and the state right after reset (10_state.md R42). -/

namespace Sys2Proof.Machine

/-! ## The host port -/

/-- One access on the host port (20_memory.md R50), with its width in bytes: only a width of 4 is
served (R54). A write of another width carries a value too, which nothing reads. -/
inductive Access where
  | read (bytes : Nat) (offset : Offset)
  | write (bytes : Nat) (offset : Offset) (value : Word)
  deriving DecidableEq, Repr

/-- What the outside world does to the block: accesses on the port (10_state.md R20) and the reset
input (70_reset_and_hazards.md R190). -/
inductive HostEvent where
  /-- One access. -/
  | access (a : Access)
  /-- The reset input is asserted. -/
  | assertReset
  /-- The reset input is released. -/
  | releaseReset
  /-- A word write to CMD of `value` whose command the assertion of reset aborts
  (70_reset_and_hazards.md R190; 93_implementation_defined.md I13). -/
  | abortedCommand (value : Word)
  deriving DecidableEq, Repr

/-- How the port answers an access (20_memory.md R50, R54). -/
inductive Response where
  /-- A read completed with this word. -/
  | data (value : Word)
  /-- A write completed. -/
  | done
  /-- The access took a bus error: no data, and no state was changed. -/
  | busError
  deriving DecidableEq, Repr

/-! ## Errors of commands -/

/-- The error kinds a command raises (60_exceptions.md R170); their codes are `Err.code`. -/
inductive Err where
  | illegalCommand
  | divideByZero
  | truncatedRecord
  | invalidPrefix
  | invalidChecksum
  | invalidCharacter
  | oversizedInput
  deriving DecidableEq, Repr

/-- The reasons the machine stops with a fault: NONE. An error of a command is a status code and the
next command runs normally (60_exceptions.md R174), a bus error is an answer on the port
(20_memory.md R54), and every command terminates (70_reset_and_hazards.md R196). So nobody raises a
fault, which is exactly what the spec says of the hardware. Log entry 17. -/
inductive Fault where
  deriving DecidableEq, Repr

/-- The reasons a step has no meaning. -/
inductive Refusal where
  /-- Raised by an arm of exec whose instruction has no meaning yet. No arm of this model raises
  it. Safe: the machine stops where the hardware goes on. -/
  | notModelled (mnemonic : String)
  deriving DecidableEq, Repr

/-! ## State -/

/-- A byte array as the bytes written since reset: strictly rising indices, one entry each. An index
that is not listed has had no byte written since reset, and reads as the byte drawn at reset (log
entries 2 and 3). -/
abbrev Memory := List Host.Cell

/-- The state of the block, its parameters, and the two ends of its host port. -/
structure State where
  /-- The parameters of the built block. No step changes them (10_state.md R38, log entry 1). -/
  cfg : Config
  /-- Operand register A (10_state.md R21). -/
  a : Wide
  /-- Operand register B (10_state.md R22). -/
  b : Wide
  /-- Result register R (10_state.md R23). -/
  r : Wide
  /-- Remainder register REM (10_state.md R24). -/
  rem : BitVec 16
  /-- The last word written to CMD (10_state.md R29, R30). -/
  cmd : Word
  /-- STATUS.ERR (10_state.md R31). -/
  err : BitVec 8
  /-- STATUS.STICKY (10_state.md R31). -/
  sticky : Bool
  /-- ILEN (10_state.md R32). -/
  ilen : BitVec 7
  /-- OLEN (10_state.md R33). -/
  olen : BitVec 7
  /-- CLEN (10_state.md R34). -/
  clen : BitVec 7
  /-- IBUF (10_state.md R35). -/
  ibuf : Memory
  /-- OBUF (10_state.md R36). -/
  obuf : Memory
  /-- Is the reset input asserted (70_reset_and_hazards.md R190)? -/
  inReset : Bool
  /-- The model's own: how many free bytes earlier resets have drawn (log entry 2). -/
  draws : Nat
  /-- The model's own: the host events still to come, oldest first (log entry 4). -/
  hostQueue : List HostEvent
  /-- The model's own: the port's answers, newest first (log entry 5). -/
  responses : List Response
  deriving DecidableEq, Repr

/-- What an instruction's meaning answers. -/
abbrev Result := Host.Outcome State Fault Refusal

/-- The machine right after reset (10_state.md R42, 70_reset_and_hazards.md R190): every register 0,
the buffers unspecified, the reset input released, the default parameters (log entry 1), and nothing
asked of the port yet. -/
def State.reset : State :=
  { cfg := defaultConfig
    a := 0, b := 0, r := 0, rem := 0
    cmd := 0, err := 0, sticky := false
    ilen := 0, olen := 0, clen := 0
    ibuf := [], obuf := []
    inReset := false
    draws := 0
    hostQueue := [], responses := [] }

end Sys2Proof.Machine
end

