-- ==== Sys2Proof/Machine/Operands.lean ====
section
/-! DEFINITION. The operand forms: register values at a width and their words (10_state.md R21-R25),
buffer bytes and word lanes (20_memory.md R51), byte-string conversions (00_scope.md R10), and the
address map (20_memory.md R55). -/

namespace Sys2Proof.Machine

/-! ## Register values (40_wideint.md R100, 10_state.md R25) -/

/-- trunc_w of a register: the operand a WIDE command of width w reads (40_wideint.md R100). -/
def operand (w : Nat) (x : Wide) : Nat := x.toNat % 2 ^ w

/-- zext_128 of a result (40_wideint.md R100). -/
def zext128 (v : Nat) : Wide := BitVec.ofNat 128 v

/-- The 16-bit divisor B[15:0] (40_wideint.md R104). -/
def divisor (b : Wide) : Nat := b.toNat % 2 ^ 16

/-- Word k of a register, word 0 least significant (10_state.md R21, R25). -/
def getWord (x : Wide) (k : Fin 4) : Word := x.extractLsb' (32 * k.val) 32

/-- A register with its word k replaced (10_state.md R21). -/
def setWord (x : Wide) (k : Fin 4) (v : Word) : Wide :=
  (x &&& ~~~((0xFFFFFFFF#128) <<< (32 * k.val))) ||| (v.setWidth 128 <<< (32 * k.val))

/-! ## Byte strings (00_scope.md R10) -/

/-- valBE: a byte string read as a big-endian integer. -/
def valBE (s : List Byte) : Nat := s.foldl (fun acc b => acc * 256 + b.toNat) 0

/-- BE_L: the L-byte big-endian string of a value, most significant byte first. -/
def beBytes : Nat → Nat → List Byte
  | 0, _ => []
  | L + 1, v => BitVec.ofNat 8 (v / 256 ^ L) :: beBytes L v

/-- bytelen: the least n with v < 256^n; bytelen 0 = 0. -/
def byteLen (v : Nat) : Nat := if v = 0 then 0 else Nat.log2 v / 8 + 1

/-- How many entries at the front of a list are 0 (42_base59.md R144). -/
def leadingZeros {α : Type} [BEq α] [OfNat α 0] (s : List α) : Nat :=
  (s.takeWhile (· == 0)).length

/-! ## Buffers -/

/-- The byte an array lists at an index, if one was written there since reset. -/
def Memory.byte? : Memory → Nat → Option Byte
  | [], _ => none
  | (k, b) :: m, i => if i = k then some b else Memory.byte? m i

/-- BufRead(IBUF, i) (00_scope.md R11): the byte last written, else the byte drawn at reset
(70_reset_and_hazards.md R190, R192; log entry 2). -/
def State.ibufByte (s : State) (i : Nat) : Byte :=
  (s.ibuf.byte? i).getD (Config.freeByte (s.draws + i))

/-- Byte i of OBUF: the byte last written, else the byte drawn at reset (10_state.md R36; log entry
2). OBUF's draws follow IBUF's. -/
def State.obufByte (s : State) (i : Nat) : Byte :=
  (s.obuf.byte? i).getD (Config.freeByte (s.draws + bufBytes + i))

/-- IBUF[0 .. n-1] (10_state.md R35). -/
def State.ibufBytes (s : State) (n : Nat) : List Byte := (List.range n).map s.ibufByte

/-- OBUF[0 .. n-1] (10_state.md R36). -/
def State.obufBytes (s : State) (n : Nat) : List Byte := (List.range n).map s.obufByte

/-- A buffer word from its four bytes, the lowest-numbered byte in the most significant lane
(20_memory.md R51). -/
def laneWord (b0 b1 b2 b3 : Byte) : Word := b0 ++ b1 ++ b2 ++ b3

/-- Lane j of a buffer word: bits [31-8j : 24-8j] (20_memory.md R51). -/
def laneByte (v : Word) (j : Nat) : Byte := v.extractLsb' (24 - 8 * j) 8

/-! ## The address map (20_memory.md R55) -/

/-- A word of the register window that is not reserved. -/
inductive Reg where
  | cmd | status | ilen | olen | clen | rem
  | a (k : Fin 4) | b (k : Fin 4) | r (k : Fin 4)
  | ibuf (k : Fin 16) | obuf (k : Fin 16)
  deriving DecidableEq, Repr

/-- offset(NAME): where a word stands in the window (20_memory.md R55, 30_encoding.md R78). -/
def Reg.offset : Reg → Offset
  | .cmd => 0x000
  | .status => 0x004
  | .ilen => 0x008
  | .olen => 0x00C
  | .clen => 0x010
  | .rem => 0x014
  | .a k => BitVec.ofNat 12 (0x020 + 4 * k.val)
  | .b k => BitVec.ofNat 12 (0x030 + 4 * k.val)
  | .r k => BitVec.ofNat 12 (0x040 + 4 * k.val)
  | .ibuf k => BitVec.ofNat 12 (0x100 + 4 * k.val)
  | .obuf k => BitVec.ofNat 12 (0x140 + 4 * k.val)

/-- The names of the window, in the order of the address map (20_memory.md R55). -/
def allRegs : List Reg :=
  List.flatten
    [ [Reg.cmd, Reg.status, Reg.ilen, Reg.olen, Reg.clen, Reg.rem],
      (List.range 4).map (fun k => Reg.a (Fin.ofNat 4 k)),
      (List.range 4).map (fun k => Reg.b (Fin.ofNat 4 k)),
      (List.range 4).map (fun k => Reg.r (Fin.ofNat 4 k)),
      (List.range 16).map (fun k => Reg.ibuf (Fin.ofNat 16 k)),
      (List.range 16).map (fun k => Reg.obuf (Fin.ofNat 16 k)) ]

/-- The word at an offset; none for an offset the map does not list: it is reserved (20_memory.md
R55). -/
def regAt? (off : Offset) : Option Reg := allRegs.find? (fun reg => reg.offset == off)

/-- The offset of an access. -/
def Access.offset : Access → Offset
  | .read _ off => off
  | .write _ off _ => off

/-- The width of an access in bytes. -/
def Access.bytes : Access → Nat
  | .read n _ => n
  | .write n _ _ => n

/-- Only 32-bit accesses at a multiple of 4 are served (20_memory.md R54). -/
def Access.legal (x : Access) : Bool := x.bytes == 4 && x.offset.toNat % 4 == 0

/-! ## The window in the host's address space (20_memory.md R53) -/

/-- The host address of an offset. -/
def hostAddr (c : Config) (off : Offset) : Nat := c.base + off.toNat

/-- The offset of a host address inside the 4096-byte window at BASE; the platform sends every other
address elsewhere. -/
def offsetOf? (c : Config) (addr : Nat) : Option Offset :=
  if c.base ≤ addr ∧ addr < c.base + 4096 then some (BitVec.ofNat 12 (addr - c.base)) else none

end Sys2Proof.Machine
end

