-- ==== Sys2Proof/Machine/Flags.lean ====
section
/-! DEFINITION. The only flags of the block are STATUS.ERR and STATUS.STICKY: no command has a carry,
borrow, overflow, zero or sign flag (10_state.md R28). Here are the error codes (60_exceptions.md
R170), the STATUS word (10_state.md R31), and the status update at the end of a command (60_exceptions.md R172). -/

namespace Sys2Proof.Machine

/-- The code an error leaves in STATUS.ERR (60_exceptions.md R170). -/
def Err.code : Err → BitVec 8
  | .illegalCommand => 0x01
  | .divideByZero => 0x02
  | .truncatedRecord => 0x03
  | .invalidPrefix => 0x04
  | .invalidChecksum => 0x05
  | .invalidCharacter => 0x06
  | .oversizedInput => 0x07

/-- The STATUS word: ERR in bits 7..0, STICKY in bit 8, the rest 0 (10_state.md R31). -/
def State.statusWord (s : State) : Word := 0#23 ++ BitVec.ofBool s.sticky ++ s.err

/-- Success: ERR <- 0; STICKY is kept (60_exceptions.md R172). -/
def succeed (s : State) : State := { s with err := 0 }

/-- A raise: ERR <- code, STICKY <- 1 (60_exceptions.md R172). -/
def raiseErr (e : Err) (s : State) : State := { s with err := e.code, sticky := true }

/-- CLRERR: ERR <- 0, STICKY <- 0 (60_exceptions.md R172, 43_control.md R161). -/
def clearStatus (s : State) : State := { s with err := 0, sticky := false }

end Sys2Proof.Machine
end

