-- ==== Sys2Proof/Machine/Ops.lean ====
section
/-! DEFINITION. The named operations over buffers and registers that the commands and the port share:
buffer writes, the end of a command (this block's form of taking an exception: 60_exceptions.md
R172, R174; there is no trap entry and no return from one, R175), reset (70_reset_and_hazards.md
R190), and the reads and writes of the register window (20_memory.md R55, R56). -/

namespace Sys2Proof.Machine

/-! ## Buffer writes -/

/-- Write one byte of a byte array, keeping its indices strictly rising. -/
def Memory.put : Memory → Nat → Byte → Memory
  | [], i, v => [(i, v)]
  | (k, b) :: m, i, v =>
    if i < k then (i, v) :: (k, b) :: m
    else if i = k then (i, v) :: m
    else (k, b) :: Memory.put m i v

/-- Write the bytes of a string from an index upward. -/
def Memory.putFrom : Memory → Nat → List Byte → Memory
  | m, _, [] => m
  | m, i, b :: bs => Memory.putFrom (m.put i b) (i + 1) bs

/-- Every index of the array is at least `lo`, and they rise strictly. -/
def Memory.risesFrom : Nat → Memory → Bool
  | _, [] => true
  | lo, (k, _) :: m => decide (lo ≤ k) && Memory.risesFrom (k + 1) m

/-- The canonical form: strictly rising indices, so one entry for an index. An index that no write
has reached since reset is not listed and has no value of its own, so no entry can equal it. -/
def Memory.wf (m : Memory) : Bool := Memory.risesFrom 0 m

/-- Every listed index lies in the buffer (20_memory.md R58). -/
def Memory.inBuffer (m : Memory) : Bool := m.all fun e => decide (e.1 < bufBytes)

/-- The output string padded with 0x00 to the whole buffer (10_state.md R36). -/
def padded (out : List Byte) : List Byte := out ++ List.replicate (bufBytes - out.length) 0

/-- A producing command's writes: OBUF[0 .. n-1] <- the output, OBUF[n .. 63] <- 0x00, OLEN <- n
(10_state.md R33, R36). -/
def produce (out : List Byte) (s : State) : State :=
  { s with obuf := s.obuf.putFrom 0 (padded out), olen := BitVec.ofNat 7 out.length }

/-! ## The end of a command (60_exceptions.md R172, 00_scope.md R11) -/

/-- Commit a command's collected writes, or discard them all and raise: the raise updates the state
from BEFORE the command (60_exceptions.md R172). -/
def finish (s : State) : Except Err State → Result
  | .ok t => .next (succeed t)
  | .error e => .next (raiseErr e s)

/-! ## Reset (70_reset_and_hazards.md R190, 10_state.md R42) -/

/-- Every register takes its reset value (10_state.md R42). -/
def clearRegisters (s : State) : State :=
  { s with
    a := 0, b := 0, r := 0, rem := 0
    cmd := 0, err := 0, sticky := false
    ilen := 0, olen := 0, clen := 0 }

/-- The buffers become unspecified: a new byte is drawn for each of their bytes
(70_reset_and_hazards.md R190). -/
def drawBuffers (s : State) : State :=
  { s with ibuf := [], obuf := [], draws := s.draws + 2 * bufBytes }

/-- The reset input is asserted. While it stays asserted the buffers are not drawn again (log entry
7). -/
def assertReset (s : State) : State :=
  if s.inReset then clearRegisters s
  else { drawBuffers (clearRegisters s) with inReset := true }

/-- The reset input is released: the registers have their reset values (70_reset_and_hazards.md
R190). Releasing an input that is not asserted does nothing (log entry 7). -/
def releaseReset (s : State) : State :=
  if s.inReset then { clearRegisters s with inReset := false } else s

/-! ## The register window (20_memory.md R55, R56) -/

/-- A word read of an aligned offset; a reserved offset reads 0 (20_memory.md R55, R56). -/
def readWord (off : Offset) (s : State) : Word :=
  match regAt? off with
  | some .cmd => s.cmd
  | some .status => s.statusWord
  | some .ilen => s.ilen.setWidth 32
  | some .olen => s.olen.setWidth 32
  | some .clen => s.clen.setWidth 32
  | some .rem => s.rem.setWidth 32
  | some (.a k) => getWord s.a k
  | some (.b k) => getWord s.b k
  | some (.r k) => getWord s.r k
  | some (.ibuf k) =>
    laneWord (s.ibufByte (4 * k.val)) (s.ibufByte (4 * k.val + 1))
      (s.ibufByte (4 * k.val + 2)) (s.ibufByte (4 * k.val + 3))
  | some (.obuf k) =>
    laneWord (s.obufByte (4 * k.val)) (s.obufByte (4 * k.val + 1))
      (s.obufByte (4 * k.val + 2)) (s.obufByte (4 * k.val + 3))
  | none => 0

/-- The storage effect of a word write: read/write words take the value, read-only words ignore it
(20_memory.md R55, R56). Writing CMD stores the word (10_state.md R29); performing it is the port's. -/
def writeReg (reg : Reg) (v : Word) (s : State) : State :=
  match reg with
  | .cmd => { s with cmd := v }
  | .ilen => { s with ilen := v.setWidth 7 }
  | .a k => { s with a := setWord s.a k v }
  | .b k => { s with b := setWord s.b k v }
  | .ibuf k =>
    { s with
      ibuf := s.ibuf.putFrom (4 * k.val) [laneByte v 0, laneByte v 1, laneByte v 2, laneByte v 3] }
  | .status => s
  | .olen => s
  | .clen => s
  | .rem => s
  | .r _ => s
  | .obuf _ => s

/-! ## Answers of the port -/

/-- The port answers the access. -/
def respond (x : Response) (s : State) : State := { s with responses := x :: s.responses }

/-- The port answers after a command has completed (10_state.md R20). -/
def withResponse (x : Response) : Result → Result
  | .next s => .next (respond x s)
  | .fault f => .fault f
  | .refused y => .refused y

end Sys2Proof.Machine
end

