-- ==== Sys2Proof/Machine/Base59.lean ====
section
/-! DEFINITION. The B59 unit (42_base59.md): base-59 text with a checksum character. A digit string
is a list of natural numbers, most significant digit first. -/

namespace Sys2Proof.Machine

/-! ## Digit strings (42_base59.md R142-R144) -/

/-- The loop of R144: while V > 0, body := [V mod base] ++ body; V := V div base. The fuel bounds the
number of turns. -/
def digitLoop (base : Nat) : Nat → Nat → List Nat → List Nat
  | 0, _, body => body
  | fuel + 1, V, body =>
    if V = 0 then body else digitLoop base fuel (V / base) (V % base :: body)

/-- The digits of a value, most significant first; none for 0 (42_base59.md R144). A value has at
most one base-59 digit for each of its bits, so the fuel is never short. -/
def digitsOf (V : Nat) : List Nat := digitLoop radix (Nat.log2 V + 1) V []

/-- The value of a digit string, most significant digit first (42_base59.md R144). -/
def valDigits (D : List Nat) : Nat := D.foldl (fun acc d => acc * radix + d) 0

/-- b59digits: one leader for each leading zero byte, then the digits of the value (42_base59.md
R142, R144). -/
def b59digits (s : List Byte) : List Nat :=
  List.replicate (leadingZeros s) 0 ++ digitsOf (valBE s)

/-- b59bytes: one zero byte for each leader, then the bytes of the value (42_base59.md R144). -/
def b59bytes (D : List Nat) : List Byte :=
  let V := valDigits D
  List.replicate (leadingZeros D) 0 ++ beBytes (byteLen V) V

/-- chk: the checksum digit, leaders counted (42_base59.md R143). -/
def chk (D : List Nat) : Nat := (radix - (D.sum + D.length + D.length / radix) % radix) % radix

/-! ## Characters (42_base59.md R140, R147) -/

/-- ALPHA[d] (42_base59.md R140). A well-formed alphabet has an entry for every digit. -/
def charOf (c : Config) (d : Nat) : Byte := c.alphabet.getD d 0

/-- digitof: the alphabet first, then the look-alike map, else none (42_base59.md R147). -/
def digitof? (c : Config) (x : Byte) : Option Nat :=
  match c.alphabet.findIdx? (· == x) with
  | some d => some d
  | none => (c.aliasMap.find? (fun e => e.1 == x)).map Prod.snd

/-- Every character of a text as a digit, or none where some character is no digit (42_base59.md
R146). -/
def textDigits? (c : Config) : List Byte → Option (List Nat)
  | [] => some []
  | x :: xs =>
    match digitof? c x, textDigits? c xs with
    | some d, some ds => some (d :: ds)
    | _, _ => none

/-- The text of a byte string: the characters of its digits, then the checksum character
(42_base59.md R145). -/
def b59text (c : Config) (s : List Byte) : List Byte :=
  let D := b59digits s
  D.map (charOf c) ++ [charOf c (chk D)]

/-! ## The commands -/

/-- B59ENC's writes or its error (42_base59.md R145). -/
def b59Encode (s : State) : Except Err State :=
  let n := s.ilen.toNat
  if n > bufBytes then .error .oversizedInput
  else
    let T := b59text s.cfg (s.ibufBytes n)
    if T.length > bufBytes then .error .oversizedInput
    else .ok (produce T s)

/-- B59DEC's writes or its error, its checks in the order of R146 (60_exceptions.md R173). -/
def b59Decode (s : State) : Except Err State :=
  let n := s.ilen.toNat
  if n > bufBytes then .error .oversizedInput
  else if n = 0 then .error .invalidChecksum
  else
    match textDigits? s.cfg (s.ibufBytes n) with
    | none => .error .invalidCharacter
    | some e =>
      if e.getLastD 0 ≠ chk e.dropLast then .error .invalidChecksum
      else .ok (produce (b59bytes e.dropLast) s)

/-- B59ENC (42_base59.md R145). -/
def execB59enc (s : State) : Result := finish s (b59Encode s)

/-- B59DEC (42_base59.md R146). -/
def execB59dec (s : State) : Result := finish s (b59Decode s)

end Sys2Proof.Machine
end

