-- ==== Sys2Proof/Machine/Control.lean ====
section
/-! DEFINITION. The control commands (43_control.md), and the meaning of a word that is no command
(60_exceptions.md R171). -/

namespace Sys2Proof.Machine

/-- NOP: nothing but ERR <- 0 (43_control.md R160). -/
def execNop (s : State) : Result := finish s (.ok s)

/-- CLRERR: ERR <- 0 and STICKY <- 0 (43_control.md R161). -/
def execClrerr (s : State) : Result := .next (clearStatus s)

/-- A word that fails R74: IllegalCommand and nothing else (60_exceptions.md R171). -/
def execIllegal (s : State) : Result := finish s (.error .illegalCommand)

end Sys2Proof.Machine
end

