-- ==== Sys2Proof/Machine/Vlc.lean ====
section
/-! DEFINITION. The VLC unit (41_varlen.md): VLENC and VLDEC over the block's VL_TABLE. -/

namespace Sys2Proof.Machine

/-- The record of meat M at length L, where R125 accepts that length: the prefix fits in the unused
high bits, and the decoder's own header match gives this length and mask back (41_varlen.md R125). -/
def recordAt? (table : List VlRow) (M L : Nat) : Option (List Byte) :=
  match beBytes L M with
  | [] => none
  | raw :: rest =>
    match vlCell? table L (modeQ raw) with
    | none => none
    | some c =>
      match vlheader table (raw ||| c.pattern) with
      | none => none
      | some (L', c') =>
        if raw &&& c.mask = 0#8 ∧ L' = L ∧ c'.mask = c.mask then some ((raw ||| c.pattern) :: rest)
        else none

/-- The lengths R125 tries, in order: max(4, bytelen(M)) .. 16 (41_varlen.md R125). -/
def tryLengths (M : Nat) : List Nat :=
  let from_ := max lMin (byteLen M)
  List.range' from_ (lMax + 1 - from_)

/-- The record of the first accepted length (41_varlen.md R125). -/
def vlEncode? (table : List VlRow) (M : Nat) : Option (List Byte) :=
  (tryLengths M).findSome? (recordAt? table M)

/-- strip: the meat a record carries, the prefix bits cleared from byte 0 (41_varlen.md R124). -/
def strip (record : List Byte) (mask : Byte) : Nat :=
  match record with
  | [] => 0
  | b :: rest => valBE ((b &&& ~~~mask) :: rest)

/-- VLENC's writes or its error (41_varlen.md R125). -/
def vlEncode (s : State) : Except Err State :=
  match vlEncode? s.cfg.vlTable s.a.toNat with
  | some record => .ok (produce record s)
  | none => .error .oversizedInput

/-- VLDEC's writes or its error, its checks in the order of R126 (60_exceptions.md R173). -/
def vlDecode (s : State) : Except Err State :=
  let n := s.ilen.toNat
  if n > bufBytes then .error .oversizedInput
  else if n = 0 then .error .truncatedRecord
  else
    match vlheader s.cfg.vlTable (s.ibufByte 0) with
    | none => .error .invalidPrefix
    | some (L, c) =>
      if n < L then .error .truncatedRecord
      else .ok { s with r := zext128 (strip (s.ibufBytes L) c.mask), clen := BitVec.ofNat 7 L }

/-- VLENC (41_varlen.md R125). -/
def execVlenc (s : State) : Result := finish s (vlEncode s)

/-- VLDEC (41_varlen.md R126). -/
def execVldec (s : State) : Result := finish s (vlDecode s)

end Sys2Proof.Machine
end

