-- ==== Sys2Proof/Machine/Wide.lean ====
section
/-! DEFINITION. The WIDE unit (40_wideint.md): every operation at widths 64 and 128 by value, modulo
2^w (R100, R110). The f functions are the spec's formulas on natural numbers; `wide` is R100's
frame around them. -/

namespace Sys2Proof.Machine

/-- ADD: (a + b) mod 2^w (40_wideint.md R101). -/
def addMod (w a b : Nat) : Nat := (a + b) % 2 ^ w

/-- SUB: (a + 2^w - b) mod 2^w (40_wideint.md R102). -/
def subMod (w a b : Nat) : Nat := (a + 2 ^ w - b) % 2 ^ w

/-- MUL: (a * b) mod 2^w (40_wideint.md R103). -/
def mulMod (w a b : Nat) : Nat := (a * b) % 2 ^ w

/-- SHL: (a * 2^s) mod 2^w, the amount not reduced (40_wideint.md R105). -/
def shlMod (w a s : Nat) : Nat := (a * 2 ^ s) % 2 ^ w

/-- SHR: a div 2^s (40_wideint.md R106). -/
def shrDiv (a s : Nat) : Nat := a / 2 ^ s

/-- The frame of a WIDE command that cannot raise: R <- zext_128 of the result (40_wideint.md R100). -/
def wide (res : Nat) (s : State) : Result := finish s (.ok { s with r := zext128 res })

/-- DIV: quotient to R, remainder to REM, DivideByZero when B[15:0] = 0 (40_wideint.md R104). -/
def divide (w : Nat) (s : State) : Except Err State :=
  let a := operand w s.a
  let d := divisor s.b
  if d = 0 then .error .divideByZero
  else .ok { s with r := zext128 (a / d), rem := BitVec.ofNat 16 (a % d) }

/-- ADD.64 (40_wideint.md R101). -/
def execAdd64 (s : State) : Result := wide (addMod 64 (operand 64 s.a) (operand 64 s.b)) s

/-- ADD.128 (40_wideint.md R101). -/
def execAdd128 (s : State) : Result := wide (addMod 128 (operand 128 s.a) (operand 128 s.b)) s

/-- SUB.64 (40_wideint.md R102). -/
def execSub64 (s : State) : Result := wide (subMod 64 (operand 64 s.a) (operand 64 s.b)) s

/-- SUB.128 (40_wideint.md R102). -/
def execSub128 (s : State) : Result := wide (subMod 128 (operand 128 s.a) (operand 128 s.b)) s

/-- MUL.64 (40_wideint.md R103). -/
def execMul64 (s : State) : Result := wide (mulMod 64 (operand 64 s.a) (operand 64 s.b)) s

/-- MUL.128 (40_wideint.md R103). -/
def execMul128 (s : State) : Result := wide (mulMod 128 (operand 128 s.a) (operand 128 s.b)) s

/-- DIV.64 (40_wideint.md R104). -/
def execDiv64 (s : State) : Result := finish s (divide 64 s)

/-- DIV.128 (40_wideint.md R104). -/
def execDiv128 (s : State) : Result := finish s (divide 128 s)

/-- SHL.64 #n (40_wideint.md R105). -/
def execShl64 (n : BitVec 7) (s : State) : Result := wide (shlMod 64 (operand 64 s.a) n.toNat) s

/-- SHL.128 #n (40_wideint.md R105). -/
def execShl128 (n : BitVec 7) (s : State) : Result := wide (shlMod 128 (operand 128 s.a) n.toNat) s

/-- SHR.64 #n (40_wideint.md R106). -/
def execShr64 (n : BitVec 7) (s : State) : Result := wide (shrDiv (operand 64 s.a) n.toNat) s

/-- SHR.128 #n (40_wideint.md R106). -/
def execShr128 (n : BitVec 7) (s : State) : Result := wide (shrDiv (operand 128 s.a) n.toNat) s

/-- AND.64 (40_wideint.md R107). -/
def execAnd64 (s : State) : Result := wide (operand 64 s.a &&& operand 64 s.b) s

/-- AND.128 (40_wideint.md R107). -/
def execAnd128 (s : State) : Result := wide (operand 128 s.a &&& operand 128 s.b) s

/-- OR.64 (40_wideint.md R108). -/
def execOr64 (s : State) : Result := wide (operand 64 s.a ||| operand 64 s.b) s

/-- OR.128 (40_wideint.md R108). -/
def execOr128 (s : State) : Result := wide (operand 128 s.a ||| operand 128 s.b) s

/-- XOR.64 (40_wideint.md R109). -/
def execXor64 (s : State) : Result := wide (operand 64 s.a ^^^ operand 64 s.b) s

/-- XOR.128 (40_wideint.md R109). -/
def execXor128 (s : State) : Result := wide (operand 128 s.a ^^^ operand 128 s.b) s

end Sys2Proof.Machine
end

