-- ==== Sys2Proof/Machine/Dispatch.lean ====
section
/-! DEFINITION. One arm for each command of the opcode map (30_encoding.md R72). -/

namespace Sys2Proof.Machine

def exec (i : Instr) (s : State) : Host.Outcome State Fault Refusal :=
  match i with
  | .add64 => Sys2Proof.Machine.execAdd64 s
  | .add128 => Sys2Proof.Machine.execAdd128 s
  | .sub64 => Sys2Proof.Machine.execSub64 s
  | .sub128 => Sys2Proof.Machine.execSub128 s
  | .mul64 => Sys2Proof.Machine.execMul64 s
  | .mul128 => Sys2Proof.Machine.execMul128 s
  | .div64 => Sys2Proof.Machine.execDiv64 s
  | .div128 => Sys2Proof.Machine.execDiv128 s
  | .shl64 n => Sys2Proof.Machine.execShl64 n s
  | .shl128 n => Sys2Proof.Machine.execShl128 n s
  | .shr64 n => Sys2Proof.Machine.execShr64 n s
  | .shr128 n => Sys2Proof.Machine.execShr128 n s
  | .and64 => Sys2Proof.Machine.execAnd64 s
  | .and128 => Sys2Proof.Machine.execAnd128 s
  | .or64 => Sys2Proof.Machine.execOr64 s
  | .or128 => Sys2Proof.Machine.execOr128 s
  | .xor64 => Sys2Proof.Machine.execXor64 s
  | .xor128 => Sys2Proof.Machine.execXor128 s
  | .nop => Sys2Proof.Machine.execNop s
  | .vlenc => Sys2Proof.Machine.execVlenc s
  | .vldec => Sys2Proof.Machine.execVldec s
  | .b59enc => Sys2Proof.Machine.execB59enc s
  | .b59dec => Sys2Proof.Machine.execB59dec s
  | .clrerr => Sys2Proof.Machine.execClrerr s

end Sys2Proof.Machine
end

