-- ==== Sys2Proof/Machine/Port.lean ====
section
/-! DEFINITION. The host port (20_memory.md R50-R57, 10_state.md R20): how an event from the outside
is served. A write to CMD stores the word and performs it as a command (10_state.md R29). -/

namespace Sys2Proof.Machine

/-- Perform a command word: the decoded command, or IllegalCommand (30_encoding.md R74, R75). -/
def performCommand (v : Word) (s : State) : Result :=
  match decode v with
  | .ok i => exec i s
  | .error _ => execIllegal s

/-- A word write of an aligned offset (20_memory.md R55, R56; 10_state.md R29). -/
def writeWord (off : Offset) (v : Word) (s : State) : Result :=
  match regAt? off with
  | some .cmd => performCommand v (writeReg .cmd v s)
  | some reg => .next (writeReg reg v s)
  | none => .next s

/-- One access: a bus error while reset is asserted (70_reset_and_hazards.md R190) and for another
width or a misaligned offset (20_memory.md R54); else the word read or write. -/
def serveAccess (x : Access) (s : State) : Result :=
  if s.inReset || !x.legal then .next (respond .busError s)
  else
    match x with
    | .read _ off => .next (respond (.data (readWord off s)) s)
    | .write _ off v => withResponse .done (writeWord off v s)

/-- One event. A command that reset aborts leaves none of its writes: the state is the reset state
(70_reset_and_hazards.md R190), and its access takes a bus error (log entry 8). -/
def serveEvent (e : HostEvent) (s : State) : Result :=
  match e with
  | .access x => serveAccess x s
  | .assertReset => .next (assertReset s)
  | .releaseReset => .next (releaseReset s)
  | .abortedCommand _ => .next (respond .busError (assertReset s))

/-- The word write of `v` to CMD: how a host issues a command (30_encoding.md R70). -/
def cmdWrite (v : Word) : HostEvent := .access (.write 4 Reg.cmd.offset v)

/-- Serve the oldest event; with none to serve the block does nothing (10_state.md R20, log entry 4). -/
def stepHost (s : State) : Result :=
  match s.hostQueue with
  | [] => .next s
  | e :: rest => serveEvent e { s with hostQueue := rest }

/-- Put the write of a command word to CMD in front of everything the host has still to do, with the
reset input released so that the write is served (log entry 6). -/
def placeCommand (s : State) (v : Word) : State :=
  { s with hostQueue := cmdWrite v :: s.hostQueue, inReset := false }

end Sys2Proof.Machine
end

