-- ==== Sys2Proof/Machine/Step.lean ====
section
/-! DEFINITION. One step is one event of the outside world (10_state.md R20): an access on the host
port, or a change of the reset input. -/

namespace Sys2Proof.Machine

/-- One step (10_state.md R20, 20_memory.md R60). -/
def step (s : State) : Host.Outcome State Fault Refusal := stepHost s

/-- s with the write of an opcode-table word to CMD as the next thing the host does (log entry 6). -/
def State.withFetchWord (s : State) (nbits w : Nat) : State :=
  placeCommand s (BitVec.ofNat 32 (w % 2 ^ nbits))

end Sys2Proof.Machine
end

