-- ==== Sys2Proof/Machine/HostProgram.lean ====
section
/-! DEFINITION. The host's side of the port: the statements and pseudo-instructions of 30_encoding.md
R78 and R79 as the accesses they expand to, and a host program as a list of them. The host
program's own control flow is not the block's (10_state.md R27). A pseudo-instruction that
writes back what it has read takes the words its reads return from the state it starts in (log entry 16). -/

namespace Sys2Proof.Machine

/-- rd NAME (30_encoding.md R78). -/
def rd (reg : Reg) : HostEvent := .access (.read 4 reg.offset)

/-- wr NAME, imm32 (30_encoding.md R78). -/
def wr (reg : Reg) (v : Word) : HostEvent := .access (.write 4 reg.offset v)

/-- Issue one more event before everything the host has still to do, and serve it. -/
def issue (e : HostEvent) (s : State) : Result := step { s with hostQueue := e :: s.hostQueue }

/-- X in {A, B} of R79. -/
inductive OperandReg where
  | A | B
  deriving DecidableEq, Repr

/-- Word k of an operand register, as a name of the window. -/
def OperandReg.word : OperandReg → Fin 4 → Reg
  | .A, k => .a k
  | .B, k => .b k

/-- The statements of R78 and the pseudo-instructions of R79. -/
inductive HostStatement where
  | wr (reg : Reg) (v : Word)
  | rd (reg : Reg)
  | cmd (i : Instr)
  | ld128 (x : OperandReg) (v : Wide)
  | ld64 (x : OperandReg) (v : BitVec 64)
  | mov (x : OperandReg)
  | ldbuf (s : List Byte)
  | rdbuf
  | mvbuf
  deriving DecidableEq, Repr

/-- ld128 X, v (30_encoding.md R79). -/
def ld128Events (x : OperandReg) (v : Wide) : List HostEvent :=
  [wr (x.word 0) (getWord v 0), wr (x.word 1) (getWord v 1),
   wr (x.word 2) (getWord v 2), wr (x.word 3) (getWord v 3)]

/-- mov X, R, where the reads return the words of `v` (30_encoding.md R79). -/
def movEvents (x : OperandReg) (v : Wide) : List HostEvent :=
  [rd (.r 0), wr (x.word 0) (getWord v 0), rd (.r 1), wr (x.word 1) (getWord v 1),
   rd (.r 2), wr (x.word 2) (getWord v 2), rd (.r 3), wr (x.word 3) (getWord v 3)]

/-- How many words hold n bytes: ceil(n / 4). -/
def wordsFor (n : Nat) : Nat := (n + 3) / 4

/-- Word k of a byte string, bytes past its end taken as 0 (30_encoding.md R79). -/
def stringWord (s : List Byte) (k : Nat) : Word :=
  laneWord (s.getD (4 * k) 0) (s.getD (4 * k + 1) 0) (s.getD (4 * k + 2) 0) (s.getD (4 * k + 3) 0)

/-- ldbuf s (30_encoding.md R79, which gives it for len(s) ≤ 64). DESIGN CHOICE, log entry 18: a longer
string wraps the IBUF word index modulo 16, and ILEN keeps its length modulo 128. -/
def ldbufEvents (s : List Byte) : List HostEvent :=
  (List.range (wordsFor s.length)).map (fun k => wr (.ibuf (Fin.ofNat 16 k)) (stringWord s k))
    ++ [wr .ilen (BitVec.ofNat 32 s.length)]

/-- The OBUF word a host reads at index k, taken modulo 16 (log entry 18). -/
def obufWord (s : State) (k : Nat) : Word := readWord (Reg.obuf (Fin.ofNat 16 k)).offset s

/-- rdbuf, where OLEN reads n (30_encoding.md R79). OLEN is 0..64 (10_state.md R33); an n above 64
wraps the OBUF word index modulo 16 (DESIGN CHOICE, log entry 18). -/
def rdbufEvents (n : Nat) : List HostEvent :=
  rd .olen :: (List.range (wordsFor n)).map (fun k => rd (.obuf (Fin.ofNat 16 k)))

/-- The bytes of a buffer word in lane order (20_memory.md R51). -/
def wordBytes (v : Word) : List Byte := [laneByte v 0, laneByte v 1, laneByte v 2, laneByte v 3]

/-- The result of rdbuf: the first n bytes of the words read, in lane order (30_encoding.md R79). -/
def rdbufResult (s : State) : List Byte :=
  ((List.range (wordsFor s.olen.toNat)).flatMap (fun k => wordBytes (obufWord s k))).take s.olen.toNat

/-- mvbuf, where OLEN reads n and OBUF word k reads `word k` (30_encoding.md R79). OLEN is 0..64
(10_state.md R33); an n above 64 wraps both word indices modulo 16 (DESIGN CHOICE, log entry 18). -/
def mvbufEvents (n : Nat) (word : Nat → Word) : List HostEvent :=
  rd .olen ::
    (List.range (wordsFor n)).flatMap
      (fun k => [rd (.obuf (Fin.ofNat 16 k)), wr (.ibuf (Fin.ofNat 16 k)) (word k)])
    ++ [wr .ilen (BitVec.ofNat 32 n)]

/-- The accesses of a statement that starts in a state (30_encoding.md R78, R79). -/
def HostStatement.events (s : State) : HostStatement → List HostEvent
  | .wr reg v => [Machine.wr reg v]
  | .rd reg => [Machine.rd reg]
  | .cmd i => [cmdWrite (encode i)]
  | .ld128 x v => ld128Events x v
  | .ld64 x v => ld128Events x (v.setWidth 128)
  | .mov x => movEvents x s.r
  | .ldbuf str => ldbufEvents str
  | .rdbuf => rdbufEvents s.olen.toNat
  | .mvbuf => mvbufEvents s.olen.toNat (obufWord s)

/-- Serve events one after another, in issue order (20_memory.md R60). -/
def runEvents : List HostEvent → State → Result
  | [], s => .next s
  | e :: es, s =>
    match serveEvent e s with
    | .next t => runEvents es t
    | .fault f => .fault f
    | .refused y => .refused y

/-- A straight-line host program (95_test_vectors.md section 8). -/
def runProgram : List HostStatement → State → Result
  | [], s => .next s
  | st :: rest, s =>
    match runEvents (st.events s) s with
    | .next t => runProgram rest t
    | .fault f => .fault f
    | .refused y => .refused y

end Sys2Proof.Machine
end

