-- ==== Sys2Proof/Safety.lean ====
section
/-! DEFINITION. What counts as a sound state and as a safe run, in the terms the claims use. -/

namespace Sys2Proof.Machine

/-- The memories keep their canonical form and stay in their 64 bytes (10_state.md R35, R36; log
entry 3). -/
def State.memoryInv (s : State) : Prop :=
  s.ibuf.wf = true ∧ s.ibuf.inBuffer = true ∧ s.obuf.wf = true ∧ s.obuf.inBuffer = true

/-- STATUS holds a code of the table, and a code other than OK stands only under STICKY
(60_exceptions.md R170, R172; 10_state.md R31). -/
def State.statusInv (s : State) : Prop :=
  s.err.toNat ≤ 7 ∧ (s.err ≠ 0 → s.sticky = true)

/-- OLEN is 0..64 (10_state.md R33); CLEN is 0 or a record length (10_state.md R34, with its reset
value); and bytes of OBUF at and after a non-zero OLEN are 0x00 (10_state.md R36). -/
def State.lengthInv (s : State) : Prop :=
  s.olen.toNat ≤ bufBytes
    ∧ (s.clen = 0 ∨ (lMin ≤ s.clen.toNat ∧ s.clen.toNat ≤ lMax))
    ∧ (s.olen ≠ 0 → ∀ i, s.olen.toNat ≤ i → i < bufBytes → s.obufByte i = 0)

/-- While reset is asserted every register has its reset value (70_reset_and_hazards.md R190). -/
def State.resetInv (s : State) : Prop :=
  s.inReset = true →
    s.a = 0 ∧ s.b = 0 ∧ s.r = 0 ∧ s.rem = 0 ∧ s.cmd = 0 ∧ s.err = 0 ∧ s.sticky = false
      ∧ s.ilen = 0 ∧ s.olen = 0 ∧ s.clen = 0

/-- The invariant of the block: a well-formed configuration and the four parts above. -/
structure State.Inv (s : State) : Prop where
  cfgWf : s.cfg.wf = true
  memory : s.memoryInv
  status : s.statusInv
  lengths : s.lengthInv
  reset : s.resetInv

/-- A run that never stops: every number of steps ends in a next state. -/
def NeverStops (s : State) : Prop := ∀ n, ∃ t, Host.Core.run Sys2Proof.core n s = .next t

end Sys2Proof.Machine
end

