-- ==== Sys2Proof/Certificates/Slice0/Obligations.lean ====
section
/-! DEFINITION. The statements for the provers. Each says which rule of spec/ it formalises. Port
statements use `issue e s`: the state s in which the host issues the event e now. -/

open Sys2Proof Sys2Proof.Machine

/-! ## Encoding -/

/-- 30_encoding.md R75, R77. A word decodes to a command exactly when it is that command's encoding:
no bit of a field is dropped, and no word but the encoding is read as the command. -/
def Obligations.DecodeIsExactlyTheInverseOfEncode : Prop :=
  ∀ (c : Word) (i : Instr), decode c = .ok i ↔ c = encode i

/-- 30_encoding.md R74, R75. The decoder accepts exactly the words that meet the four clauses of
R74. -/
def Obligations.LegalWordsAreTheDecodedWords : Prop :=
  ∀ c : Word, legalWord c = true ↔ ∃ i, decode c = .ok i

/-- 30_encoding.md R75, its last sentence: each legal word maps to exactly one row of the opcode
table, the row of its mnemonic, and no illegal word matches any row. -/
def Obligations.EachLegalWordHasOneOpcodeRow : Prop :=
  (∀ (c : Word) (i : Instr), decode c = .ok i →
    ∃ row ∈ opcodeTable, row.mnemonic = i.mnemonic
      ∧ ∀ row' ∈ opcodeTable, row'.covers c = true ↔ row' = row)
  ∧ ∀ c : Word, legalWord c = false → ∀ row ∈ opcodeTable, row.covers c = false

/-- 30_encoding.md R77, its worked encodings, read by the decoder. -/
def Obligations.WorkedEncodingsDecode : Prop :=
  decode 0x00000001 = .ok .add64 ∧ decode 0x00000041 = .ok .add128
    ∧ decode 0x00000004 = .ok .div64 ∧ decode 0x00000105 = .ok (.shl64 1)
    ∧ decode 0x00001F46 = .ok (.shr128 31) ∧ decode 0x00007F06 = .ok (.shr64 127)
    ∧ decode 0x00000010 = .ok .vlenc ∧ decode 0x00000013 = .ok .b59dec
    ∧ decode 0x0000003F = .ok .clrerr

/-! ## A step -/

/-- 10_state.md R29, 20_memory.md R54. A word write to CMD (offset 0) whose word decodes to a command:
the step stores the word and is exec of that command, and then the write completes. -/
def Obligations.CmdWriteRunsTheDecodedCommand : Prop :=
  ∀ (s : State) (v : Word) (i : Instr) (rest : List HostEvent),
    s.hostQueue = .access (.write 4 0x000 v) :: rest → s.inReset = false → decode v = .ok i →
      step s = withResponse .done (exec i { s with hostQueue := rest, cmd := v })

/-- The model's own convention, log entry 6: withFetchWord makes the very next step run the word's
command, with nothing else changed than the fetch needs. -/
def Obligations.FetchWordIsRunNext : Prop :=
  ∀ (s : State) (w : Nat) (i : Instr), decodeTableWord 32 w = some i →
    step (s.withFetchWord 32 w)
      = withResponse .done (exec i { s with inReset := false, cmd := BitVec.ofNat 32 w })

/-- 60_exceptions.md R171. A word that fails R74 is stored in CMD, sets ERR to 0x01 and STICKY to 1,
and changes nothing else (the port's answer apart). -/
def Obligations.IllegalWordIsStoredAndRaised : Prop :=
  ∀ (s : State) (v : Word), s.inReset = false → legalWord v = false →
    issue (.access (.write 4 0x000 v)) s
      = .next { s with cmd := v, err := 0x01, sticky := true, responses := .done :: s.responses }

/-- 10_state.md R20: the block never acts between host accesses. -/
def Obligations.IdleBlockDoesNothing : Prop :=
  ∀ s : State, s.hostQueue = [] → step s = .next s

/-- 20_memory.md R60. Running the events the host has queued serves them one after another in issue
order, each taking full effect before the next. -/
def Obligations.RunServesEventsInIssueOrder : Prop :=
  ∀ (es rest : List HostEvent) (s : State),
    Host.Core.run Sys2Proof.core es.length { s with hostQueue := es ++ rest }
      = runEvents es { s with hostQueue := rest }

/-- 60_exceptions.md R174, 70_reset_and_hazards.md R196. Nothing stops the block: from every state
every number of steps ends in a next state. -/
def Obligations.RunsNeverStop : Prop := ∀ s : State, NeverStops s

/-! ## The host port -/

/-- 20_memory.md R54. An access with another width, or at an offset that is not a multiple of 4,
takes a bus error and changes no state. -/
def Obligations.BadAccessTakesABusError : Prop :=
  ∀ (s : State) (x : Access), x.bytes ≠ 4 ∨ x.offset.toNat % 4 ≠ 0 →
    issue (.access x) s = .next { s with responses := .busError :: s.responses }

/-- 20_memory.md R57. A served read answers the word at its offset and has no side effect. -/
def Obligations.ReadsHaveNoSideEffect : Prop :=
  ∀ (s : State) (off : Offset), s.inReset = false → off.toNat % 4 = 0 →
    issue (.access (.read 4 off)) s
      = .next { s with responses := .data (readWord off s) :: s.responses }

/-- 20_memory.md R51, R55, R56 and 10_state.md R21-R24, R30-R34. What a word read returns at every
aligned offset of the window. -/
def Obligations.WordReadsFollowTheAddressMap : Prop :=
  ∀ s : State,
    readWord 0x000 s = s.cmd
    ∧ ((readWord 0x004 s).extractLsb' 0 8 = s.err ∧ (readWord 0x004 s).getLsbD 8 = s.sticky
        ∧ (readWord 0x004 s).extractLsb' 9 23 = 0)
    ∧ (readWord 0x008 s).toNat = s.ilen.toNat
    ∧ (readWord 0x00C s).toNat = s.olen.toNat
    ∧ (readWord 0x010 s).toNat = s.clen.toNat
    ∧ (readWord 0x014 s).toNat = s.rem.toNat
    ∧ (∀ k < 4, readWord (BitVec.ofNat 12 (0x020 + 4 * k)) s = s.a.extractLsb' (32 * k) 32)
    ∧ (∀ k < 4, readWord (BitVec.ofNat 12 (0x030 + 4 * k)) s = s.b.extractLsb' (32 * k) 32)
    ∧ (∀ k < 4, readWord (BitVec.ofNat 12 (0x040 + 4 * k)) s = s.r.extractLsb' (32 * k) 32)
    ∧ (∀ k < 16, ∀ j < 4,
        (readWord (BitVec.ofNat 12 (0x100 + 4 * k)) s).extractLsb' (24 - 8 * j) 8
          = s.ibufByte (4 * k + j))
    ∧ (∀ k < 16, ∀ j < 4,
        (readWord (BitVec.ofNat 12 (0x140 + 4 * k)) s).extractLsb' (24 - 8 * j) 8
          = s.obufByte (4 * k + j))
    ∧ ∀ off : Offset, off.toNat % 4 = 0 →
        (0x018 ≤ off.toNat ∧ off.toNat < 0x020) ∨ (0x050 ≤ off.toNat ∧ off.toNat < 0x100)
          ∨ 0x180 ≤ off.toNat →
        readWord off s = 0

/-- 10_state.md R21, R22, R32, R35, 20_memory.md R51, R57. What a word write to A, B, ILEN or IBUF
stores, and that it changes nothing else: the other words of the register, and every other byte of
the buffers, read as before. -/
def Obligations.WordWritesStoreTheirWord : Prop :=
  ∀ (s : State) (v : Word), s.inReset = false →
    (∀ k < 4, ∃ t,
      issue (.access (.write 4 (BitVec.ofNat 12 (0x020 + 4 * k)) v)) s = .next t
        ∧ t = { s with a := t.a, responses := .done :: s.responses }
        ∧ ∀ j < 4, t.a.extractLsb' (32 * j) 32 = if j = k then v else s.a.extractLsb' (32 * j) 32)
    ∧ (∀ k < 4, ∃ t,
      issue (.access (.write 4 (BitVec.ofNat 12 (0x030 + 4 * k)) v)) s = .next t
        ∧ t = { s with b := t.b, responses := .done :: s.responses }
        ∧ ∀ j < 4, t.b.extractLsb' (32 * j) 32 = if j = k then v else s.b.extractLsb' (32 * j) 32)
    ∧ issue (.access (.write 4 0x008 v)) s
        = .next { s with ilen := v.extractLsb' 0 7, responses := .done :: s.responses }
    ∧ ∀ k < 16, ∃ t,
      issue (.access (.write 4 (BitVec.ofNat 12 (0x100 + 4 * k)) v)) s = .next t
        ∧ t = { s with ibuf := t.ibuf, responses := .done :: s.responses }
        ∧ (∀ i, t.ibufByte i
            = if 4 * k ≤ i ∧ i < 4 * k + 4 then v.extractLsb' (24 - 8 * (i - 4 * k)) 8
              else s.ibufByte i)
        ∧ ∀ i, t.obufByte i = s.obufByte i

/-- 20_memory.md R56. A word write to a read-only register or a reserved offset is accepted and
ignored. -/
def Obligations.ReadOnlyAndReservedWritesAreIgnored : Prop :=
  ∀ (s : State) (off : Offset) (v : Word), s.inReset = false → off.toNat % 4 = 0 →
    off.toNat = 0x004 ∨ (0x00C ≤ off.toNat ∧ off.toNat < 0x020)
      ∨ (0x040 ≤ off.toNat ∧ off.toNat < 0x100) ∨ 0x140 ≤ off.toNat →
    issue (.access (.write 4 off v)) s = .next { s with responses := .done :: s.responses }

/-- 20_memory.md R60, R57. A word written to A, B or IBUF is what the next read of its offset
returns; ILEN returns its low 7 bits (10_state.md R32). -/
def Obligations.WrittenWordReadsBack : Prop :=
  ∀ (s : State) (off : Offset) (v : Word), s.inReset = false → off.toNat % 4 = 0 →
    off.toNat = 0x008 ∨ (0x020 ≤ off.toNat ∧ off.toNat < 0x040)
      ∨ (0x100 ≤ off.toNat ∧ off.toNat < 0x140) →
    ∃ t, issue (.access (.write 4 off v)) s = .next t
      ∧ issue (.access (.read 4 off)) t
          = .next (respond (.data (if off.toNat = 0x008 then v &&& 0x7F else v)) t)

/-- 20_memory.md R57. Every write but one to CMD is idempotent: issuing it again changes no state. -/
def Obligations.RepeatedWritesAreIdempotent : Prop :=
  ∀ (s : State) (off : Offset) (v : Word), s.inReset = false → off.toNat % 4 = 0 →
    off.toNat ≠ 0x000 →
    ∃ t, issue (.access (.write 4 off v)) s = .next t
      ∧ issue (.access (.write 4 off v)) t = .next { t with responses := .done :: t.responses }

/-- 20_memory.md R56, its last sentence: an access that is not a word write to CMD changes no field
of STATUS. -/
def Obligations.StatusChangesOnlyThroughCommands : Prop :=
  ∀ (s t : State) (x : Access), (∀ v, x ≠ .write 4 0x000 v) →
    issue (.access x) s = .next t → t.err = s.err ∧ t.sticky = s.sticky

/-- 20_memory.md R53. The window is the 4096 bytes from BASE: each offset has one host address, and
an address outside the window is no offset. -/
def Obligations.WindowIsTheFourKilobytesAtBase : Prop :=
  ∀ (c : Config),
    (∀ off : Offset, offsetOf? c (hostAddr c off) = some off)
    ∧ (∀ (addr : Nat) (off : Offset), offsetOf? c addr = some off → hostAddr c off = addr)
    ∧ ∀ addr : Nat, offsetOf? c addr = none ↔ (addr < c.base ∨ c.base + 4096 ≤ addr)

/-! ## WIDE -/

/-- 40_wideint.md R101. ADD at both widths, its words, and its whole effect. -/
def Obligations.AddWritesTheWrappedSum : Prop :=
  encode .add64 = 0x00000001 ∧ encode .add128 = 0x00000041
  ∧ ∀ s : State,
    exec .add64 s
      = .next { s with r := (s.a.setWidth 64 + s.b.setWidth 64).setWidth 128, err := 0 }
    ∧ exec .add128 s = .next { s with r := s.a + s.b, err := 0 }

/-- 40_wideint.md R102. SUB at both widths, its words, and its whole effect. -/
def Obligations.SubWritesTheWrappedDifference : Prop :=
  encode .sub64 = 0x00000002 ∧ encode .sub128 = 0x00000042
  ∧ ∀ s : State,
    exec .sub64 s
      = .next { s with r := (s.a.setWidth 64 - s.b.setWidth 64).setWidth 128, err := 0 }
    ∧ exec .sub128 s = .next { s with r := s.a - s.b, err := 0 }

/-- 40_wideint.md R103. MUL at both widths, its words, and its whole effect: the low half only. -/
def Obligations.MulWritesTheLowHalf : Prop :=
  encode .mul64 = 0x00000003 ∧ encode .mul128 = 0x00000043
  ∧ ∀ s : State,
    exec .mul64 s
      = .next { s with r := (s.a.setWidth 64 * s.b.setWidth 64).setWidth 128, err := 0 }
    ∧ exec .mul128 s = .next { s with r := s.a * s.b, err := 0 }

/-- 40_wideint.md R104. DIV at both widths, its words, its whole effect for a divisor B[15:0] other
than 0, and DivideByZero, which writes STATUS only, for the divisor 0. -/
def Obligations.DivWritesQuotientAndRemainder : Prop :=
  encode .div64 = 0x00000004 ∧ encode .div128 = 0x00000044
  ∧ ∀ s : State,
    (s.b.setWidth 16 ≠ 0 →
      exec .div64 s
        = .next { s with
            r := (s.a.setWidth 64 / (s.b.setWidth 16).setWidth 64).setWidth 128
            rem := (s.a.setWidth 64 % (s.b.setWidth 16).setWidth 64).setWidth 16
            err := 0 }
      ∧ exec .div128 s
        = .next { s with
            r := s.a / (s.b.setWidth 16).setWidth 128
            rem := (s.a % (s.b.setWidth 16).setWidth 128).setWidth 16
            err := 0 })
    ∧ (s.b.setWidth 16 = 0 →
      exec .div64 s = .next { s with err := 0x02, sticky := true }
      ∧ exec .div128 s = .next { s with err := 0x02, sticky := true })

/-- 40_wideint.md R105. SHL at both widths for every amount 0..127, its words, and its whole effect:
an amount of w or more gives 0. -/
def Obligations.ShlShiftsLeftWithoutReducing : Prop :=
  ∀ (n : BitVec 7),
    encode (.shl64 n) = (0x00000005 ||| (n.setWidth 32 <<< 8))
    ∧ encode (.shl128 n) = (0x00000045 ||| (n.setWidth 32 <<< 8))
    ∧ ∀ s : State,
      exec (.shl64 n) s
        = .next { s with r := (s.a.setWidth 64 <<< n.toNat).setWidth 128, err := 0 }
      ∧ exec (.shl128 n) s = .next { s with r := s.a <<< n.toNat, err := 0 }

/-- 40_wideint.md R106. SHR at both widths for every amount 0..127, its words, and its whole effect:
zeros come in at bit w-1, and an amount of w or more gives 0. -/
def Obligations.ShrShiftsRightWithZeros : Prop :=
  ∀ (n : BitVec 7),
    encode (.shr64 n) = (0x00000006 ||| (n.setWidth 32 <<< 8))
    ∧ encode (.shr128 n) = (0x00000046 ||| (n.setWidth 32 <<< 8))
    ∧ ∀ s : State,
      exec (.shr64 n) s
        = .next { s with r := (s.a.setWidth 64 >>> n.toNat).setWidth 128, err := 0 }
      ∧ exec (.shr128 n) s = .next { s with r := s.a >>> n.toNat, err := 0 }

/-- 40_wideint.md R107, R108, R109. AND, OR and XOR at both widths, their words, and their whole
effect. -/
def Obligations.BitwiseCommandsWriteTheirResult : Prop :=
  encode .and64 = 0x00000007 ∧ encode .and128 = 0x00000047
  ∧ encode .or64 = 0x00000008 ∧ encode .or128 = 0x00000048
  ∧ encode .xor64 = 0x00000009 ∧ encode .xor128 = 0x00000049
  ∧ ∀ s : State,
    exec .and64 s
      = .next { s with r := (s.a.setWidth 64 &&& s.b.setWidth 64).setWidth 128, err := 0 }
    ∧ exec .and128 s = .next { s with r := s.a &&& s.b, err := 0 }
    ∧ exec .or64 s
      = .next { s with r := (s.a.setWidth 64 ||| s.b.setWidth 64).setWidth 128, err := 0 }
    ∧ exec .or128 s = .next { s with r := s.a ||| s.b, err := 0 }
    ∧ exec .xor64 s
      = .next { s with r := (s.a.setWidth 64 ^^^ s.b.setWidth 64).setWidth 128, err := 0 }
    ∧ exec .xor128 s = .next { s with r := s.a ^^^ s.b, err := 0 }

/-- 40_wideint.md R100. A 64-bit WIDE command ignores A[127:64] and B[127:64]: with other upper
halves it ends the same way. And a success leaves R[127:64] zero. -/
def Obligations.NarrowFormsIgnoreUpperHalves : Prop :=
  ∀ (i : Instr) (s t : State) (a' b' : Wide), i.op.isWide = true → i.w = false →
    a'.setWidth 64 = s.a.setWidth 64 → b'.setWidth 64 = s.b.setWidth 64 →
    exec i s = .next t →
      exec i { s with a := a', b := b' } = .next { t with a := a', b := b' }
      ∧ (t.err = 0 → t.r.toNat < 2 ^ 64)

/-- 40_wideint.md R111: SUB(ADD(a, b), b) = a, the sum passed on by the host (10_state.md R23). -/
def Obligations.SubUndoesAdd : Prop :=
  ∀ s t u : State,
    (exec .add64 s = .next t → exec .sub64 { t with a := t.r } = .next u →
      u.r = (s.a.setWidth 64).setWidth 128)
    ∧ (exec .add128 s = .next t → exec .sub128 { t with a := t.r } = .next u → u.r = s.a)

/-- 40_wideint.md R111: a = q·d + r with 0 ≤ r < d, at both widths. -/
def Obligations.DivisionIdentity : Prop :=
  ∀ s t : State,
    (exec .div64 s = .next t → t.err = 0 →
      t.r.toNat * (s.b.setWidth 16).toNat + t.rem.toNat = (s.a.setWidth 64).toNat
      ∧ t.rem.toNat < (s.b.setWidth 16).toNat)
    ∧ (exec .div128 s = .next t → t.err = 0 →
      t.r.toNat * (s.b.setWidth 16).toNat + t.rem.toNat = s.a.toNat
      ∧ t.rem.toNat < (s.b.setWidth 16).toNat)

/-- 40_wideint.md R111: MUL by 2^n equals SHL by n for n < w, SHR by n equals DIV by 2^n for n ≤ 15,
and a 64-bit shift by 64 or more gives 0. -/
def Obligations.ShiftsAgreeWithMulAndDiv : Prop :=
  (∀ (s t u : State) (n : BitVec 7),
    (n.toNat < 64 → s.b.setWidth 64 = BitVec.twoPow 64 n.toNat →
      exec .mul64 s = .next t → exec (.shl64 n) s = .next u → t.r = u.r)
    ∧ (s.b = BitVec.twoPow 128 n.toNat →
      exec .mul128 s = .next t → exec (.shl128 n) s = .next u → t.r = u.r)
    ∧ (n.toNat ≤ 15 → s.b.setWidth 16 = BitVec.twoPow 16 n.toNat →
      (exec .div64 s = .next t → exec (.shr64 n) s = .next u → t.r = u.r)
      ∧ (exec .div128 s = .next t → exec (.shr128 n) s = .next u → t.r = u.r)))
  ∧ ∀ (s : State) (n : BitVec 7), 64 ≤ n.toNat →
    exec (.shl64 n) s = .next { s with r := 0, err := 0 }
    ∧ exec (.shr64 n) s = .next { s with r := 0, err := 0 }

/-! ## Control -/

/-- 43_control.md R160, R161. NOP writes ERR <- 0 and nothing else, and only the word 0 is a NOP;
CLRERR writes ERR <- 0 and STICKY <- 0 and nothing else, and is the only command that clears
STICKY. -/
def Obligations.NopAndClrerrWriteStatusOnly : Prop :=
  encode .nop = 0x00000000 ∧ (∀ c : Word, decode c = .ok .nop → c = 0)
  ∧ encode .clrerr = 0x0000003F
  ∧ ∀ s : State,
    exec .nop s = .next { s with err := 0 }
    ∧ exec .clrerr s = .next { s with err := 0, sticky := false }
    ∧ ∀ (i : Instr) (t : State), exec i s = .next t → s.sticky = true → t.sticky = false → i = .clrerr

/-! ## VLC -/

/-- 41_varlen.md R125. Length L is accepted for meat M: its big-endian image has the raw leading byte
`raw`, the prefix of the cell fits in its unused high bits, and the header match of the merged byte
gives the length and the mask back. -/
def Sys2Proof.Machine.VlFits (table : List VlRow) (M L : Nat) (raw : Byte) (rest : List Byte)
    (c : VlCell) : Prop :=
  beBytes L M = raw :: rest
    ∧ vlCell? table L (modeQ raw) = some c
    ∧ raw &&& c.mask = 0
    ∧ ∃ c', vlheader table (raw ||| c.pattern) = some (L, c') ∧ c'.mask = c.mask

/-- 41_varlen.md R125, R128. VLENC writes the record of the LEAST accepted length from
max(4, bytelen(M)) to 16, zeros to the end of OBUF, and OLEN, and changes nothing else. -/
def Obligations.VlencWritesTheShortestAcceptedRecord : Prop :=
  ∀ (s : State) (L : Nat) (raw : Byte) (rest : List Byte) (c : VlCell),
    4 ≤ L → byteLen s.a.toNat ≤ L → L ≤ 16 →
    VlFits s.cfg.vlTable s.a.toNat L raw rest c →
    (∀ L', 4 ≤ L' → byteLen s.a.toNat ≤ L' → L' < L →
      ∀ raw' rest' c', ¬ VlFits s.cfg.vlTable s.a.toNat L' raw' rest' c') →
    ∃ t, exec .vlenc s = .next t
      ∧ t = { s with obuf := t.obuf, olen := BitVec.ofNat 7 L, err := 0 }
      ∧ (∀ i < 64, t.obufByte i = ((raw ||| c.pattern) :: rest).getD i 0)
      ∧ (∀ i, 64 ≤ i → t.obufByte i = s.obufByte i)
      ∧ ∀ i, t.ibufByte i = s.ibufByte i

/-- 41_varlen.md R125, 60_exceptions.md R172. When no length is accepted, VLENC raises OversizedInput
and writes STATUS only. -/
def Obligations.VlencRaisesWhenNoLengthIsAccepted : Prop :=
  ∀ s : State,
    (∀ L, 4 ≤ L → byteLen s.a.toNat ≤ L → L ≤ 16 →
      ∀ raw rest c, ¬ VlFits s.cfg.vlTable s.a.toNat L raw rest c) →
    exec .vlenc s = .next { s with err := 0x07, sticky := true }

/-- 41_varlen.md R125 with the default table of R123: OversizedInput happens exactly when the meat is
2^120 or more. -/
def Obligations.DefaultTableCarriesMeatsBelowTwoTo120 : Prop :=
  ∀ s t : State, s.cfg.vlTable = tCand → exec .vlenc s = .next t →
    (t.err = 0x07 ↔ 2 ^ 120 ≤ s.a.toNat) ∧ (t.err = 0 ↔ s.a.toNat < 2 ^ 120)

/-- 41_varlen.md R126. VLDEC of a record whose header is matched and whose bytes are all there: R is
the meat, CLEN the length, and nothing else but ERR changes. -/
def Obligations.VldecDecodesACompleteRecord : Prop :=
  ∀ (s : State) (L : Nat) (c : VlCell), s.cfg.wf = true →
    s.ilen.toNat ≤ 64 → s.ilen ≠ 0 →
    vlheader s.cfg.vlTable (s.ibufByte 0) = some (L, c) → L ≤ s.ilen.toNat →
    ∃ t, exec .vldec s = .next t
      ∧ t = { s with r := t.r, clen := BitVec.ofNat 7 L, err := 0 }
      ∧ t.r.toNat = valBE ((s.ibufByte 0 &&& ~~~c.mask) :: (s.ibufBytes L).tail)

/-- 41_varlen.md R126, 60_exceptions.md R173. VLDEC's errors, in the order of its checks; each writes
STATUS only. -/
def Obligations.VldecErrorsInOrder : Prop :=
  ∀ s : State,
    (64 < s.ilen.toNat → exec .vldec s = .next { s with err := 0x07, sticky := true })
    ∧ (s.ilen = 0 → exec .vldec s = .next { s with err := 0x03, sticky := true })
    ∧ (s.ilen.toNat ≤ 64 → s.ilen ≠ 0 →
        (vlheader s.cfg.vlTable (s.ibufByte 0) = none →
          exec .vldec s = .next { s with err := 0x04, sticky := true })
        ∧ ∀ L c, vlheader s.cfg.vlTable (s.ibufByte 0) = some (L, c) → s.ilen.toNat < L →
          exec .vldec s = .next { s with err := 0x03, sticky := true })

/-- 41_varlen.md R127, the round trip: for every table that passes WF1 and every meat, if VLENC
succeeds, then VLDEC on that record, with any tail after it, gives back the meat and the length. -/
def Obligations.VldecUndoesVlenc : Prop :=
  ∀ s t u : State, s.cfg.wf1 = true →
    exec .vlenc s = .next t → t.err = 0 →
    u.cfg = s.cfg → (∀ i < t.olen.toNat, u.ibufByte i = t.obufByte i) →
    t.olen.toNat ≤ u.ilen.toNat → u.ilen.toNat ≤ 64 →
    exec .vldec u = .next { u with r := s.a, clen := t.olen, err := 0 }

/-- 41_varlen.md R123. Under T_cand's header match every byte but 0x00 and 0x01 heads a record. -/
def Obligations.DefaultTableLeavesTwoBytesUnmatched : Prop :=
  ∀ b : Byte, (vlheader tCand b).isSome = true ↔ b ≠ 0x00 ∧ b ≠ 0x01

/-! ## B59 -/

/-- 42_base59.md R145, R142, R143, R144. B59ENC of at most 64 bytes: the text is one ALPHA[0] for each
leading zero byte, the base-59 digits of the value, most significant first, and the checksum
character; it fills OBUF up to OLEN with zeros behind it, and nothing else changes but ERR. A text of
more than 64 characters raises OversizedInput, which writes STATUS only. -/
def Obligations.B59encWritesTheText : Prop :=
  ∀ (s : State) (str : List Byte) (D : List Nat) (T : List Byte),
    s.ilen.toNat ≤ 64 → str = s.ibufBytes s.ilen.toNat →
    D = List.replicate (str.takeWhile (· == 0)).length 0 ++ (Nat.digits 59 (valBE str)).reverse →
    T = D.map (fun d => s.cfg.alphabet.getD d 0)
      ++ [s.cfg.alphabet.getD ((59 - (D.sum + D.length + D.length / 59) % 59) % 59) 0] →
    (T.length ≤ 64 →
      ∃ t, exec .b59enc s = .next t
        ∧ t = { s with obuf := t.obuf, olen := BitVec.ofNat 7 T.length, err := 0 }
        ∧ (∀ i < 64, t.obufByte i = T.getD i 0)
        ∧ (∀ i, 64 ≤ i → t.obufByte i = s.obufByte i)
        ∧ ∀ i, t.ibufByte i = s.ibufByte i)
    ∧ (64 < T.length → exec .b59enc s = .next { s with err := 0x07, sticky := true })

/-- 42_base59.md R145: every input of 46 bytes or fewer fits, and at every length from 47 to 64 some
input does not. -/
def Obligations.B59encOf46BytesAlwaysFits : Prop :=
  (∀ s : State, s.ilen.toNat ≤ 46 →
    ∃ t, exec .b59enc s = .next t ∧ t.err = 0 ∧ t.olen.toNat ≤ 64)
  ∧ ∀ n, 47 ≤ n → n ≤ 64 → ∃ s : State, s.ilen.toNat = n
      ∧ exec .b59enc s = .next { s with err := 0x07, sticky := true }

/-- 42_base59.md R146, R144. B59DEC of a text whose characters all map to digits and whose last digit
is the checksum of the others: OBUF holds one zero byte for each leader and then the bytes of the
value, zeros behind them, OLEN their number, and nothing else changes but ERR. -/
def Obligations.B59decWritesTheBytes : Prop :=
  ∀ (s : State) (D : List Nat) (out : List Byte), s.cfg.wf = true →
    s.ilen.toNat = D.length + 1 → s.ilen.toNat ≤ 64 →
    (∀ i < s.ilen.toNat, digitof? s.cfg (s.ibufByte i) = (D ++ [chk D])[i]?) →
    out = List.replicate (D.takeWhile (· == 0)).length 0
      ++ beBytes (byteLen (Nat.ofDigits 59 D.reverse)) (Nat.ofDigits 59 D.reverse) →
    ∃ t, exec .b59dec s = .next t
      ∧ t = { s with obuf := t.obuf, olen := BitVec.ofNat 7 out.length, err := 0 }
      ∧ out.length ≤ D.length
      ∧ (∀ i < 64, t.obufByte i = out.getD i 0)
      ∧ (∀ i, 64 ≤ i → t.obufByte i = s.obufByte i)
      ∧ ∀ i, t.ibufByte i = s.ibufByte i

/-- 42_base59.md R146, 60_exceptions.md R173. B59DEC's errors, in the order of its checks; each writes
STATUS only. -/
def Obligations.B59decErrorsInOrder : Prop :=
  ∀ s : State,
    (64 < s.ilen.toNat → exec .b59dec s = .next { s with err := 0x07, sticky := true })
    ∧ (s.ilen = 0 → exec .b59dec s = .next { s with err := 0x05, sticky := true })
    ∧ (s.ilen.toNat ≤ 64 →
        (∀ i < s.ilen.toNat, digitof? s.cfg (s.ibufByte i) = none →
          exec .b59dec s = .next { s with err := 0x06, sticky := true })
        ∧ ∀ (D : List Nat) (d : Nat), s.ilen.toNat = D.length + 1 → d ≠ chk D →
          (∀ i < s.ilen.toNat, digitof? s.cfg (s.ibufByte i) = (D ++ [d])[i]?) →
          exec .b59dec s = .next { s with err := 0x05, sticky := true })

/-- 42_base59.md R148: decoding the text B59ENC wrote gives back the bytes it was given. -/
def Obligations.B59decUndoesB59enc : Prop :=
  ∀ s t u : State, s.cfg.wf = true →
    exec .b59enc s = .next t → t.err = 0 →
    u.cfg = s.cfg → u.ilen = t.olen → (∀ i < t.olen.toNat, u.ibufByte i = t.obufByte i) →
    ∃ v, exec .b59dec u = .next v ∧ v.err = 0 ∧ v.olen = s.ilen
      ∧ ∀ i < s.ilen.toNat, v.obufByte i = s.ibufByte i

/-- 42_base59.md R148, the converse: a text that B59DEC accepts, with every character in the
alphabet, is what B59ENC makes of the result. -/
def Obligations.B59encUndoesB59dec : Prop :=
  ∀ s t u : State, s.cfg.wf = true →
    exec .b59dec s = .next t → t.err = 0 →
    (∀ i < s.ilen.toNat, s.ibufByte i ∈ s.cfg.alphabet) →
    u.cfg = s.cfg → u.ilen = t.olen → (∀ i < t.olen.toNat, u.ibufByte i = t.obufByte i) →
    ∃ v, exec .b59enc u = .next v ∧ v.err = 0 ∧ v.olen = s.ilen
      ∧ ∀ i < s.ilen.toNat, v.obufByte i = s.ibufByte i

/-- 42_base59.md R149. One character of an accepted text is changed to the byte x: a byte that is no
digit raises InvalidCharacter, a byte that folds to the same digit still decodes to the same bytes,
and a byte of another digit raises InvalidChecksum. -/
def Obligations.ChangedCharacterIsDetected : Prop :=
  ∀ (s t u : State) (j : Nat) (x : Byte), s.cfg.wf = true →
    exec .b59dec s = .next t → t.err = 0 → j < s.ilen.toNat →
    u = { s with ibuf := s.ibuf.put j x } →
    (digitof? s.cfg x = none → exec .b59dec u = .next { u with err := 0x06, sticky := true })
    ∧ (digitof? s.cfg x = digitof? s.cfg (s.ibufByte j) →
        ∃ v, exec .b59dec u = .next v ∧ v.err = 0 ∧ v.olen = t.olen
          ∧ ∀ i < 64, v.obufByte i = t.obufByte i)
    ∧ (∀ d, digitof? s.cfg x = some d → digitof? s.cfg (s.ibufByte j) ≠ some d →
        exec .b59dec u = .next { u with err := 0x05, sticky := true })

/-! ## All commands -/

/-- 60_exceptions.md R172. The status update at the end of every command: a success sets ERR to 0 and
keeps STICKY, a raise sets ERR and STICKY and leaves every other field of the state as it was before
the command, and CLRERR clears both. -/
def Obligations.StatusUpdateAtTheEndOfACommand : Prop :=
  ∀ (i : Instr) (s : State), ∃ t, exec i s = .next t
    ∧ (i = .clrerr → t = { s with err := 0, sticky := false })
    ∧ (i ≠ .clrerr → t.err = 0 → t.sticky = s.sticky)
    ∧ (t.err ≠ 0 → t.err.toNat ≤ 7 ∧ t = { s with err := t.err, sticky := true })

/-- 10_state.md R41, its column of writes, with R21-R24, R32-R36. No command writes A, B, CMD, ILEN or
IBUF; R is written by WIDE commands and VLDEC only, REM by DIV only, CLEN by VLDEC only, and OBUF
and OLEN by VLENC, B59ENC and B59DEC only. -/
def Obligations.CommandsWriteOnlyTheirWriteSets : Prop :=
  ∀ (i : Instr) (s t : State), exec i s = .next t →
    t = { s with r := t.r, rem := t.rem, obuf := t.obuf, olen := t.olen, clen := t.clen,
                 err := t.err, sticky := t.sticky }
    ∧ (i.op.isWide = false → i ≠ .vldec → t.r = s.r)
    ∧ (i.op ≠ .div → t.rem = s.rem)
    ∧ (i ≠ .vldec → t.clen = s.clen)
    ∧ (i ≠ .vlenc → i ≠ .b59enc → i ≠ .b59dec →
        t.olen = s.olen ∧ ∀ k, t.obufByte k = s.obufByte k)
    ∧ ∀ k, t.ibufByte k = s.ibufByte k

/-- 10_state.md R41, its column of reads, and R23. Of CMD a command reads W and SHAMT (R41), which are
part of the command i here. Beside i, no outcome depends on R, REM, OBUF, OLEN, CLEN, STATUS or the
word that CMD holds: two states that agree on A, B, ILEN and IBUF (and are the same built block)
give the same error code, the same STICKY where the command writes it (CLRERR and every raise) and,
on success, the same results. -/
def Obligations.ResultsDependOnOperandsOnly : Prop :=
  ∀ (i : Instr) (s s' : State), s'.cfg = s.cfg → s'.a = s.a → s'.b = s.b → s'.ilen = s.ilen →
    (∀ k < 64, s'.ibufByte k = s.ibufByte k) →
    ∃ t t', exec i s = .next t ∧ exec i s' = .next t' ∧ t'.err = t.err
      ∧ (i = .clrerr ∨ t.err ≠ 0 → t'.sticky = t.sticky)
      ∧ (t.err = 0 →
          (i.op.isWide = true ∨ i = .vldec → t'.r = t.r)
          ∧ (i.op = .div → t'.rem = t.rem)
          ∧ (i = .vldec → t'.clen = t.clen)
          ∧ (i = .vlenc ∨ i = .b59enc ∨ i = .b59dec →
              t'.olen = t.olen ∧ ∀ k < 64, t'.obufByte k = t.obufByte k))

/-- 10_state.md R35, 20_memory.md R58. VLDEC, B59ENC and B59DEC read IBUF[0 .. ILEN-1] and nothing
beyond: with other bytes from ILEN on they end the same way. -/
def Obligations.BytesFromIlenOnAreNotRead : Prop :=
  ∀ (i : Instr) (s t : State) (m : Memory), i = .vldec ∨ i = .b59enc ∨ i = .b59dec →
    (∀ k < s.ilen.toNat, ({ s with ibuf := m } : State).ibufByte k = s.ibufByte k) →
    exec i s = .next t → exec i { s with ibuf := m } = .next { t with ibuf := m }

/-- 10_state.md R32, 60_exceptions.md R170. With ILEN above 64 every command that reads ILEN raises
OversizedInput, whatever IBUF holds. -/
def Obligations.OversizedIlenRaises : Prop :=
  ∀ (i : Instr) (s : State), i = .vldec ∨ i = .b59enc ∨ i = .b59dec → 64 < s.ilen.toNat →
    exec i s = .next { s with err := 0x07, sticky := true }

/-- 10_state.md R31. STICKY is cleared only by CLRERR or reset: a step that clears it served the word
0x3F written to CMD, or an event of the reset input. -/
def Obligations.StickyIsClearedOnlyByClrerrOrReset : Prop :=
  ∀ s t : State, step s = .next t → s.sticky = true → t.sticky = false →
    ∃ e rest, s.hostQueue = e :: rest
      ∧ (e = .access (.write 4 0x000 0x0000003F) ∨ e = .assertReset ∨ e = .releaseReset
          ∨ ∃ v, e = .abortedCommand v)

/-! ## Reset -/

/-- 10_state.md R42. Every register is 0 after reset, and no byte of a buffer has a specified value
(log entries 2 and 3). -/
def Obligations.ResetStateHasTheResetValues : Prop :=
  State.reset.a = 0 ∧ State.reset.b = 0 ∧ State.reset.r = 0 ∧ State.reset.rem = 0
    ∧ State.reset.cmd = 0 ∧ State.reset.err = 0 ∧ State.reset.sticky = false
    ∧ State.reset.ilen = 0 ∧ State.reset.olen = 0 ∧ State.reset.clen = 0
    ∧ ∀ i, State.reset.ibuf.byte? i = none ∧ State.reset.obuf.byte? i = none

/-- 70_reset_and_hazards.md R190, R191. Asserting reset gives every register its reset value and
leaves the parameters; a command it aborts leaves no write of its own. From a state that was not in
reset, no buffer byte keeps a specified value and each of the 128 is drawn anew; an assertion that
finds reset asserted, and the release, draw nothing and keep every byte. Three clauses are in the
model's own terms: a drawn byte is freeByte of a number that State.draws has not yet passed (log
entry 2), the draw stands at the assertion and nowhere else (log entry 7), and the access whose
command reset aborts is answered with a bus error (log entry 8, the model's choice). -/
def Obligations.AssertedResetGivesTheResetValues : Prop :=
  ∀ (s : State) (v : Word), ∃ t, issue .assertReset s = .next t
    ∧ t.a = 0 ∧ t.b = 0 ∧ t.r = 0 ∧ t.rem = 0 ∧ t.cmd = 0 ∧ t.err = 0 ∧ t.sticky = false
    ∧ t.ilen = 0 ∧ t.olen = 0 ∧ t.clen = 0
    ∧ t.inReset = true ∧ t.cfg = s.cfg
    ∧ (s.inReset = false →
        t.draws = s.draws + 128
        ∧ (∀ i, t.ibuf.byte? i = none ∧ t.obuf.byte? i = none)
        ∧ ∀ i < 64, t.ibufByte i = Config.freeByte (s.draws + 128 + i)
            ∧ t.obufByte i = Config.freeByte (s.draws + 192 + i))
    ∧ (s.inReset = true →
        t.draws = s.draws ∧ ∀ i, t.ibufByte i = s.ibufByte i ∧ t.obufByte i = s.obufByte i)
    ∧ issue (.abortedCommand v) s = .next { t with responses := .busError :: s.responses }
    ∧ ∃ u, issue .releaseReset s = .next u
      ∧ u.draws = s.draws ∧ ∀ i, u.ibufByte i = s.ibufByte i ∧ u.obufByte i = s.obufByte i

/-- 70_reset_and_hazards.md R190. An access made while reset is asserted takes a bus error and has no
effect; releasing reset leaves every register at its reset value and lets accesses be served. -/
def Obligations.AccessesUnderResetTakeABusError : Prop :=
  ∀ s : State, s.inReset = true →
    (∀ x, issue (.access x) s = .next { s with responses := .busError :: s.responses })
    ∧ ∃ t, issue .releaseReset s = .next t
      ∧ t.a = 0 ∧ t.b = 0 ∧ t.r = 0 ∧ t.rem = 0 ∧ t.cmd = 0 ∧ t.err = 0 ∧ t.sticky = false
      ∧ t.ilen = 0 ∧ t.olen = 0 ∧ t.clen = 0 ∧ t.inReset = false ∧ t.cfg = s.cfg

/-! ## Invariants -/

/-- The invariant holds in the state right after reset (10_state.md R42, 41_varlen.md R123,
42_base59.md R141). -/
def Obligations.ResetStateMeetsTheInvariant : Prop := State.reset.Inv

/-- Every step keeps the invariant: the parameters stay well-formed, the buffers keep their canonical
form inside 64 bytes (20_memory.md R58), STATUS keeps a legal code under STICKY (60_exceptions.md
R170, R172), OLEN stays at most 64 with zeros behind it and CLEN stays a record length (10_state.md
R33, R34, R36), and while reset is asserted every register is 0 (70_reset_and_hazards.md R190). -/
def Obligations.StepKeepsTheInvariant : Prop :=
  ∀ s t : State, s.Inv → step s = .next t → t.Inv

/-- 10_state.md R38, 70_reset_and_hazards.md R191. No step, reset among them, changes the parameters
of the built block. -/
def Obligations.StepNeverChangesTheParameters : Prop :=
  ∀ s t : State, step s = .next t → t.cfg = s.cfg

/-- 41_varlen.md R122, R123 and 42_base59.md R140, R141. The default parameters pass every check. -/
def Obligations.DefaultParametersAreWellFormed : Prop := defaultConfig.wf = true

/-! ## The host's statements -/

/-- 30_encoding.md R79. ld128, ld64 and mov, run from a state that is not in reset: X holds the value
(zero-extended for ld64; R for mov), and nothing else changes but the port's answers. mov writes the
words its reads return in the state it starts in: that it is expanded there is the model's choice
(log entry 16). -/
def Obligations.RegisterPseudoInstructionsLoadX : Prop :=
  ∀ (s : State) (v : Wide) (d : BitVec 64), s.inReset = false →
    (∃ x, runEvents ((HostStatement.ld128 .A v).events s) s
      = .next { s with a := v, responses := x })
    ∧ (∃ x, runEvents ((HostStatement.ld128 .B v).events s) s
      = .next { s with b := v, responses := x })
    ∧ (∃ x, runEvents ((HostStatement.ld64 .A d).events s) s
      = .next { s with a := d.setWidth 128, responses := x })
    ∧ (∃ x, runEvents ((HostStatement.ld64 .B d).events s) s
      = .next { s with b := d.setWidth 128, responses := x })
    ∧ (∃ x, runEvents ((HostStatement.mov .A).events s) s
      = .next { s with a := s.r, responses := x })
    ∧ (∃ x, runEvents ((HostStatement.mov .B).events s) s
      = .next { s with b := s.r, responses := x })

/-- 30_encoding.md R79, 20_memory.md R51. ldbuf stores a string of at most 64 bytes and the zeros that
fill its last word into IBUF, and its length into ILEN; rdbuf reads OLEN and the words that hold
OBUF[0 .. OLEN-1], changes nothing, and its result is those bytes; mvbuf copies those words to IBUF
and OLEN to ILEN. Every byte of IBUF behind the words written reads as before, and the port's
answers are listed, oldest first, before they are turned round. That rdbuf and mvbuf are expanded
with the words their reads return in the state they start in is the model's choice (log entry 16);
the answers here say that the reads do return them. -/
def Obligations.BufferPseudoInstructionsMoveStrings : Prop :=
  ∀ (s : State) (str : List Byte), s.inReset = false →
    (str.length ≤ 64 →
      ∃ t, runEvents ((HostStatement.ldbuf str).events s) s = .next t
        ∧ t = { s with
                ibuf := t.ibuf
                ilen := BitVec.ofNat 7 str.length
                responses := List.replicate (wordsFor str.length + 1) Response.done ++ s.responses }
        ∧ ∀ i, t.ibufByte i
            = if i < 4 * wordsFor str.length then str.getD i 0 else s.ibufByte i)
    ∧ (s.olen.toNat ≤ 64 →
      runEvents (HostStatement.rdbuf.events s) s
        = .next { s with
            responses :=
              (Response.data (s.olen.setWidth 32)
                :: (List.range (wordsFor s.olen.toNat)).map (fun k => Response.data (obufWord s k))).reverse
              ++ s.responses }
      ∧ rdbufResult s = s.obufBytes s.olen.toNat
      ∧ ∃ t, runEvents (HostStatement.mvbuf.events s) s = .next t
        ∧ t = { s with
                ibuf := t.ibuf
                ilen := s.olen
                responses :=
                  (Response.data (s.olen.setWidth 32)
                    :: (List.range (wordsFor s.olen.toNat)).flatMap
                        (fun k => [Response.data (obufWord s k), Response.done])
                    ++ [Response.done]).reverse
                  ++ s.responses }
        ∧ ∀ i, t.ibufByte i
            = if i < 4 * wordsFor s.olen.toNat then s.obufByte i else s.ibufByte i)
end

