-- ==== Sys2Proof/Laws/Codec.lean ====
section
/-! SUPPORT. The arithmetic of byte strings and digit strings (00_scope.md R10, 42_base59.md R144),
and the header scan (41_varlen.md R124). -/

namespace Sys2Proof.Machine

/-! ## Byte strings -/

@[simp] theorem beBytes_length (L v : Nat) : (beBytes L v).length = L := by
  induction L generalizing v with
  | zero => rfl
  | succ L ih => simp [beBytes, ih]

theorem foldl_valBE (s : List Byte) (acc : Nat) :
    s.foldl (fun acc b => acc * 256 + b.toNat) acc = acc * 256 ^ s.length + valBE s := by
  induction s generalizing acc with
  | nil => simp [valBE]
  | cons b s ih =>
    simp only [valBE, List.foldl_cons, List.length_cons] at ih ⊢
    rw [ih, ih (0 * 256 + b.toNat)]
    ring

@[simp] theorem valBE_nil : valBE [] = 0 := rfl

theorem valBE_cons (b : Byte) (s : List Byte) :
    valBE (b :: s) = b.toNat * 256 ^ s.length + valBE s := by
  have := foldl_valBE s (0 * 256 + b.toNat)
  simpa [valBE] using this

theorem valBE_lt (s : List Byte) : valBE s < 256 ^ s.length := by
  induction s with
  | nil => simp
  | cons b s ih =>
    have hb : b.toNat < 256 := b.isLt
    rw [valBE_cons, List.length_cons, Nat.pow_succ]
    have : b.toNat * 256 ^ s.length ≤ 255 * 256 ^ s.length := Nat.mul_le_mul_right _ (by omega)
    omega

theorem valBE_beBytes_mod (L v : Nat) : valBE (beBytes L v) = v % 256 ^ L := by
  induction L with
  | zero => simp [beBytes, Nat.mod_one]
  | succ L ih =>
    have hm := Nat.mod_mul (x := v) (a := 256 ^ L) (b := 256)
    rw [beBytes, valBE_cons, ih, beBytes_length, BitVec.toNat_ofNat, show (2 : Nat) ^ 8 = 256 from rfl,
      show 256 ^ (L + 1) = 256 ^ L * 256 from rfl, hm, Nat.mul_comm, Nat.add_comm]

/-- BE_L and valBE are inverse on values below 256^L. -/
theorem valBE_beBytes {L v : Nat} (h : v < 256 ^ L) : valBE (beBytes L v) = v := by
  rw [valBE_beBytes_mod, Nat.mod_eq_of_lt h]

/-- bytelen is the least length that holds the value. -/
theorem byteLen_le_iff (v n : Nat) : byteLen v ≤ n ↔ v < 256 ^ n := by
  have h256 : 256 ^ n = 2 ^ (8 * n) := by rw [Nat.pow_mul]
  by_cases hv : v = 0
  · subst hv; simp [byteLen]
  · rw [h256, ← Nat.log2_lt hv]
    simp only [byteLen, hv, if_false]
    omega

/-! ## Digit strings -/

theorem digitLoop_eq (fuel V : Nat) (body : List Nat) (h : V < 2 ^ fuel) :
    digitLoop radix fuel V body = (Nat.digits radix V).reverse ++ body := by
  induction fuel generalizing V body with
  | zero => have : V = 0 := by simpa using h
            subst this; simp [digitLoop]
  | succ fuel ih =>
    by_cases hV : V = 0
    · subst hV; simp [digitLoop]
    · have hlt : V / radix < 2 ^ fuel := by
        rw [Nat.div_lt_iff_lt_mul (by decide)]
        rw [Nat.pow_succ] at h
        have : 2 ^ fuel * 2 ≤ 2 ^ fuel * radix := Nat.mul_le_mul_left _ (by decide)
        omega
      rw [digitLoop, if_neg hV, ih _ _ hlt,
        Nat.digits_def' (by decide : 1 < radix) (Nat.pos_of_ne_zero hV)]
      simp

/-- The loop of R144 gives the base-59 digits, most significant first. -/
theorem digitsOf_eq (V : Nat) : digitsOf V = (Nat.digits radix V).reverse := by
  have h : V < 2 ^ (Nat.log2 V + 1) := Nat.lt_log2_self
  rw [digitsOf, digitLoop_eq _ _ _ h, List.append_nil]

theorem valDigits_eq (D : List Nat) : valDigits D = Nat.ofDigits radix D.reverse := by
  have key : ∀ (D : List Nat) (acc : Nat), D.foldl (fun acc d => acc * radix + d) acc
      = acc * radix ^ D.length + Nat.ofDigits radix D.reverse := by
    intro D
    induction D with
    | nil => simp
    | cons d D ih =>
      intro acc
      rw [List.foldl_cons, ih, List.reverse_cons, Nat.ofDigits_append, List.length_cons,
        List.length_reverse, Nat.ofDigits_singleton]
      ring
  simpa [valDigits] using key D 0

/-- A string is its leading zeros followed by a string with none. -/
theorem leadingZeros_split {α : Type} [BEq α] [LawfulBEq α] [OfNat α 0] (s : List α) :
    s = List.replicate (leadingZeros s) 0 ++ s.dropWhile (· == 0) := by
  induction s with
  | nil => rfl
  | cons x s ih =>
    by_cases h : x == (0 : α)
    · have hx : x = 0 := by simpa using h
      subst hx
      simp only [leadingZeros, List.takeWhile_cons, List.dropWhile_cons, beq_self_eq_true, if_true,
        List.length_cons, List.replicate_succ, List.cons_append] at ih ⊢
      rw [← ih]
    · simp [leadingZeros, h]

theorem leadingZeros_append {α : Type} [BEq α] [LawfulBEq α] [OfNat α 0] (k : Nat) (t : List α)
    (h : ∀ x ∈ t.head?, x ≠ 0) : leadingZeros (List.replicate k 0 ++ t) = k := by
  induction k with
  | zero =>
    cases t with
    | nil => rfl
    | cons x t =>
      have : x ≠ 0 := h x (by simp)
      simp [leadingZeros, this]
  | succ k ih =>
    simp only [leadingZeros, List.replicate_succ, List.cons_append, List.takeWhile_cons,
      beq_self_eq_true, if_true, List.length_cons] at ih ⊢
    rw [ih]

theorem head?_dropWhile_ne_zero {α : Type} [BEq α] [LawfulBEq α] [OfNat α 0] (s : List α) :
    ∀ x ∈ (s.dropWhile (· == 0)).head?, x ≠ 0 := by
  intro x hx h
  induction s with
  | nil => simp at hx
  | cons y s ih =>
    rw [List.dropWhile_cons] at hx
    split at hx
    · exact ih hx
    · simp at hx; subst hx; subst h; simp_all

theorem valBE_replicate_append (k : Nat) (t : List Byte) :
    valBE (List.replicate k 0 ++ t) = valBE t := by
  induction k with
  | zero => rfl
  | succ k ih => rw [List.replicate_succ, List.cons_append, valBE_cons, ih]; simp

theorem beBytes_valBE (s : List Byte) : beBytes s.length (valBE s) = s := by
  induction s with
  | nil => rfl
  | cons b s ih =>
    have hlt := valBE_lt s
    have hpos : 0 < 256 ^ s.length := Nat.pow_pos (by decide)
    have hdiv : valBE (b :: s) / 256 ^ s.length = b.toNat := by
      rw [valBE_cons, Nat.add_comm, Nat.add_mul_div_right _ _ hpos, Nat.div_eq_of_lt hlt, Nat.zero_add]
    have hcong : ∀ L v w, v % 256 ^ L = w % 256 ^ L → beBytes L v = beBytes L w := by
      intro L
      induction L with
      | zero => intros; rfl
      | succ L ihL =>
        intro v w h
        have hp : 256 ^ (L + 1) = 256 ^ L * 256 := rfl
        rw [hp] at h
        have h1 : v % 256 ^ L = w % 256 ^ L := by
          rw [← Nat.mod_mul_right_mod v (256 ^ L) 256, h, Nat.mod_mul_right_mod]
        have h2 : v / 256 ^ L % 256 = w / 256 ^ L % 256 := by
          rw [← Nat.mod_mul_right_div_self, h, Nat.mod_mul_right_div_self]
        rw [beBytes, beBytes, ihL _ _ h1]
        congr 1
        apply BitVec.eq_of_toNat_eq
        simpa using h2
    rw [List.length_cons, beBytes, hdiv, hcong s.length _ (valBE s), ih]
    · simp
    · rw [valBE_cons, Nat.mul_add_mod_self_right]

theorem byteLen_valBE (s : List Byte) (h : ∀ x ∈ s.head?, x ≠ 0) : byteLen (valBE s) = s.length := by
  apply Nat.le_antisymm
  · rw [byteLen_le_iff]; exact valBE_lt s
  · cases s with
    | nil => simp
    | cons b s =>
      have hb : b ≠ 0 := h b (by simp)
      have hb' : 0 < b.toNat := by
        rcases Nat.eq_zero_or_pos b.toNat with h0 | h0
        · exact absurd (BitVec.eq_of_toNat_eq (by simpa using h0)) hb
        · exact h0
      by_contra hc
      have : byteLen (valBE (b :: s)) ≤ s.length := by simp only [List.length_cons] at hc; omega
      rw [byteLen_le_iff, valBE_cons] at this
      have h2 : 1 * 256 ^ s.length ≤ b.toNat * 256 ^ s.length := Nat.mul_le_mul_right _ hb'
      omega

theorem head?_digitsOf (V : Nat) : ∀ x ∈ (digitsOf V).head?, x ≠ 0 := by
  intro x hx
  rw [digitsOf_eq, List.head?_reverse] at hx
  have hne : Nat.digits radix V ≠ [] := by rintro h; simp [h] at hx
  have hV : V ≠ 0 := by rintro rfl; simp at hne
  rw [List.getLast?_eq_getLast_of_ne_nil hne] at hx
  cases hx
  exact Nat.getLast_digit_ne_zero radix hV

theorem valDigits_digitsOf (V : Nat) : valDigits (digitsOf V) = V := by
  rw [valDigits_eq, digitsOf_eq, List.reverse_reverse, Nat.ofDigits_digits]

theorem valDigits_replicate_append (k : Nat) (t : List Nat) :
    valDigits (List.replicate k 0 ++ t) = valDigits t := by
  rw [valDigits_eq, valDigits_eq, List.reverse_append, Nat.ofDigits_append, List.reverse_replicate, Nat.ofDigits_replicate_zero]
  simp

theorem head?_beBytes_byteLen (V : Nat) : ∀ x ∈ (beBytes (byteLen V) V).head?, x ≠ 0 := by
  intro x hx
  rcases hL : byteLen V with _ | L
  · rw [hL] at hx; simp [beBytes] at hx
  · rw [hL] at hx
    simp only [beBytes, List.head?_cons, Option.mem_def, Option.some.injEq] at hx
    subst hx
    have h1 : V < 256 ^ (L + 1) := by rw [← byteLen_le_iff]; omega
    have h2 : ¬ V < 256 ^ L := by rw [← byteLen_le_iff]; omega
    have hpos : 0 < 256 ^ L := Nat.pow_pos (by decide)
    intro hc
    have := congrArg BitVec.toNat hc
    simp only [BitVec.toNat_ofNat] at this
    have h3 : V / 256 ^ L < 256 := by rw [Nat.div_lt_iff_lt_mul hpos]; rw [Nat.pow_succ] at h1; omega
    have h4 : 0 < V / 256 ^ L := Nat.div_pos (by omega) hpos
    rw [show (2:Nat)^8 = 256 from rfl, Nat.mod_eq_of_lt h3] at this
    simp at this; omega

/-- The maps of R144 are inverse: bytes to digits and back. -/
theorem b59bytes_b59digits (s : List Byte) : b59bytes (b59digits s) = s := by
  have hsplit := leadingZeros_split s
  have hV : valBE s = valBE (s.dropWhile (· == 0)) := by
    conv_lhs => rw [hsplit]
    exact valBE_replicate_append _ _
  simp only [b59bytes, b59digits]
  rw [leadingZeros_append _ _ (head?_digitsOf _), valDigits_replicate_append, valDigits_digitsOf, hV,
    byteLen_valBE _ (head?_dropWhile_ne_zero s), beBytes_valBE]
  exact hsplit.symm

theorem digitsOf_valDigits (t : List Nat) (h : ∀ x ∈ t.head?, x ≠ 0) (hd : ∀ x ∈ t, x < radix) :
    digitsOf (valDigits t) = t := by
  rw [digitsOf_eq, valDigits_eq, Nat.digits_ofDigits radix (by decide)]
  · simp
  · intro l hl; exact hd l (by simpa using hl)
  · intro hne
    rw [List.getLast_reverse]
    apply h
    simp [List.head?_eq_some_head (by simpa using hne)]

/-- The maps of R144 are inverse: digits to bytes and back. -/
theorem b59digits_b59bytes (D : List Nat) (hd : ∀ x ∈ D, x < radix) : b59digits (b59bytes D) = D := by
  have hsplit := leadingZeros_split D
  have hV : valDigits D = valDigits (D.dropWhile (· == 0)) := by
    conv_lhs => rw [hsplit]
    exact valDigits_replicate_append _ _
  simp only [b59bytes, b59digits]
  rw [leadingZeros_append _ _ (head?_beBytes_byteLen _), valBE_replicate_append]
  have hb : valBE (beBytes (byteLen (valDigits D)) (valDigits D)) = valDigits D :=
    valBE_beBytes (by rw [← byteLen_le_iff])
  rw [hb, hV, digitsOf_valDigits _ (head?_dropWhile_ne_zero D)]
  · exact hsplit.symm
  · intro x hx; exact hd x ((List.dropWhile_sublist _).subset hx)

/-- The bytes of a digit string are no more than its digits (42_base59.md R146). -/
theorem b59bytes_length_le (D : List Nat) (hd : ∀ x ∈ D, x < radix) : (b59bytes D).length ≤ D.length := by
  have hsplit := leadingZeros_split D
  have hV : valDigits D = valDigits (D.dropWhile (· == 0)) := by
    conv_lhs => rw [hsplit]
    exact valDigits_replicate_append _ _
  have hl := congrArg List.length hsplit
  simp only [List.length_append, List.length_replicate] at hl
  simp only [b59bytes, List.length_append, List.length_replicate, beBytes_length]
  have : byteLen (valDigits D) ≤ (D.dropWhile (· == 0)).length := by
    rw [byteLen_le_iff, hV, valDigits_eq]
    have h1 := Nat.ofDigits_lt_base_pow_length (b := radix) (l := (D.dropWhile (· == 0)).reverse) (by decide)
      (fun x hx => hd x ((List.dropWhile_sublist _).subset (by simpa using hx)))
    rw [List.length_reverse] at h1
    exact lt_of_lt_of_le h1 (Nat.pow_le_pow_left (by decide) _)
  omega

theorem digitsOf_lt (V : Nat) : ∀ d ∈ digitsOf V, d < radix := by
  intro d hd
  rw [digitsOf_eq, List.mem_reverse] at hd
  exact Nat.digits_lt_base (by decide) hd

theorem b59digits_lt (s : List Byte) : ∀ d ∈ b59digits s, d < radix := by
  intro d hd
  simp only [b59digits, List.mem_append, List.mem_replicate] at hd
  rcases hd with ⟨_, rfl⟩ | hd
  · decide
  · exact digitsOf_lt _ d hd

theorem chk_lt (D : List Nat) : chk D < radix := Nat.mod_lt _ (by decide)

/-! ## Characters -/

theorem wf_parts {c : Config} (h : c.wf = true) :
    c.vlTable.length = 13 ∧ c.wf1 = true ∧ c.alphabet.length = radix ∧ c.alphabet.Nodup
      ∧ ∀ e ∈ c.aliasMap, e.2 < radix := by
  simp only [Config.wf, Config.tableComplete, Config.alphabetOk, Config.aliasOk, Bool.and_eq_true,
    beq_iff_eq, decide_eq_true_eq, List.all_eq_true] at h
  obtain ⟨⟨⟨⟨⟨⟨h1, h2⟩, _⟩, _⟩, h3, h4⟩, _, h5⟩, _⟩ := h
  exact ⟨h1, h2, h3, h4, fun e he => (h5 e he).2⟩

/-- A character of the alphabet is read as its digit. -/
theorem digitof?_getElem {c : Config} (hn : c.alphabet.Nodup) {d : Nat} (hd : d < c.alphabet.length) :
    digitof? c c.alphabet[d] = some d := by
  have : c.alphabet.findIdx? (· == c.alphabet[d]) = some d := by
    rw [List.findIdx?_eq_some_iff_getElem]
    refine ⟨hd, by simp, fun j hj => ?_⟩
    have hne : c.alphabet[j] ≠ c.alphabet[d] := fun e => by
      have := (List.Nodup.getElem_inj_iff hn).1 e
      omega
    simpa using hne
  simp [digitof?, this]

theorem charOf_eq {c : Config} {d : Nat} (hd : d < c.alphabet.length) :
    charOf c d = c.alphabet[d] := by simp [charOf, hd]

/-- Every character of a well-formed block is read as a digit below 59. -/
theorem digitof?_lt {c : Config} (h : c.wf = true) {x : Byte} {d : Nat} (hd : digitof? c x = some d) :
    d < radix := by
  obtain ⟨_, _, hl, _, ha⟩ := wf_parts h
  simp only [digitof?] at hd
  split at hd
  · cases hd
    rename_i hf
    rw [List.findIdx?_eq_some_iff_getElem] at hf
    obtain ⟨hlt, _⟩ := hf
    omega
  · simp only [Option.map_eq_some_iff] at hd
    obtain ⟨e, he, rfl⟩ := hd
    exact ha e (List.mem_of_find?_eq_some he)

/-- A character of the alphabet is the character of the digit it is read as. -/
theorem charOf_digitof? {c : Config} {x : Byte} {d : Nat} (hx : x ∈ c.alphabet)
    (hd : digitof? c x = some d) : charOf c d = x := by
  simp only [digitof?] at hd
  split at hd
  · cases hd
    rename_i hf
    rw [List.findIdx?_eq_some_iff_getElem] at hf
    obtain ⟨hlt, he, _⟩ := hf
    rw [charOf_eq hlt]
    simpa using he
  · rename_i hf
    rw [List.findIdx?_eq_none_iff] at hf
    exact absurd (hf x hx) (by simp)

/-- A text maps to digits exactly when each of its characters does, in order. -/
theorem textDigits?_some {c : Config} {xs : List Byte} {ds : List Nat} :
    textDigits? c xs = some ds ↔ xs.map (digitof? c) = ds.map some := by
  induction xs generalizing ds with
  | nil => cases ds <;> simp [textDigits?]
  | cons x xs ih =>
    cases ds with
    | nil =>
      simp only [textDigits?]
      split <;> simp
    | cons d ds =>
      simp only [textDigits?, List.map_cons, List.cons.injEq]
      constructor
      · intro h
        split at h
        · rename_i d' ds' h1 h2
          cases h
          exact ⟨h1, ih.1 h2⟩
        · cases h
      · rintro ⟨h1, h2⟩
        rw [h1, ih.2 h2]

theorem textDigits?_none {c : Config} {xs : List Byte} :
    textDigits? c xs = none ↔ ∃ x ∈ xs, digitof? c x = none := by
  induction xs with
  | nil => simp [textDigits?]
  | cons x xs ih =>
    simp only [textDigits?, List.mem_cons, exists_eq_or_imp, ← ih]
    rcases digitof? c x with _ | d <;> rcases textDigits? c xs with _ | ds <;> simp

/-! ## Candidate lengths -/

/-- The lengths VLENC tries (41_varlen.md R125). -/
theorem mem_tryLengths {M L : Nat} : L ∈ tryLengths M ↔ 4 ≤ L ∧ byteLen M ≤ L ∧ L ≤ 16 := by
  simp only [tryLengths, List.mem_range'_1, lMin, lMax]
  omega

/-- An accepted record has the length it was tried at. -/
theorem recordAt?_length {table : List VlRow} {M L : Nat} {record : List Byte}
    (h : recordAt? table M L = some record) : record.length = L := by
  have hl := beBytes_length L M
  simp only [recordAt?] at h
  split at h
  · cases h
  · rename_i raw rest hb
    rw [hb] at hl
    split at h
    · cases h
    split at h
    · cases h
    split at h
    · cases h; simpa using hl
    · cases h

theorem vlEncode?_some {table : List VlRow} {M : Nat} {record : List Byte}
    (h : vlEncode? table M = some record) :
    ∃ L ∈ tryLengths M, recordAt? table M L = some record :=
  List.exists_of_findSome?_eq_some h

/-- A record is 4 to 16 bytes long. -/
theorem vlEncode?_length {table : List VlRow} {M : Nat} {record : List Byte}
    (h : vlEncode? table M = some record) : 4 ≤ record.length ∧ record.length ≤ 16 := by
  obtain ⟨L, hL, hr⟩ := vlEncode?_some h
  rw [mem_tryLengths] at hL
  rw [recordAt?_length hr]
  omega

/-! ## Header matching -/

theorem vlScan_some {b : Byte} {L0 : Nat} {rows : List VlRow} {L : Nat} {c : VlCell}
    (h : vlScan b L0 rows = some (L, c)) :
    L0 ≤ L ∧ L < L0 + rows.length ∧ carries b c = true
      ∧ (rows[L - L0]?).map (cellOf · (modeQ b)) = some c := by
  induction rows generalizing L0 with
  | nil => simp [vlScan] at h
  | cons row rows ih =>
    simp only [vlScan] at h
    split at h
    · cases h; refine ⟨by omega, by simp, ‹_›, by simp⟩
    · obtain ⟨h1, h2, h3, h4⟩ := ih h
      refine ⟨by omega, by simp only [List.length_cons]; omega, h3, ?_⟩
      rw [show L - L0 = L - (L0 + 1) + 1 by omega, List.getElem?_cons_succ]
      exact h4

/-- A header match names a cell of the table at its length, in the byte's own column. -/
theorem vlheader_some {table : List VlRow} {b : Byte} {L : Nat} {c : VlCell}
    (h : vlheader table b = some (L, c)) :
    lMin ≤ L ∧ L < lMin + table.length ∧ carries b c = true
      ∧ vlCell? table L (modeQ b) = some c := by
  obtain ⟨h1, h2, h3, h4⟩ := vlScan_some h
  exact ⟨h1, h2, h3, by rw [vlCell?, if_neg (by omega)]; exact h4⟩

end Sys2Proof.Machine
end

