-- ==== Sys2Proof/Laws/State.lean ====
section
/-! SUPPORT. One lemma for each field and each named update of State, so that no later proof unfolds
a record update. -/

namespace Sys2Proof.Machine

/-! ## succeed -/

@[simp] theorem succeed_cfg (s : State) : (succeed s).cfg = s.cfg := rfl
@[simp] theorem succeed_a (s : State) : (succeed s).a = s.a := rfl
@[simp] theorem succeed_b (s : State) : (succeed s).b = s.b := rfl
@[simp] theorem succeed_r (s : State) : (succeed s).r = s.r := rfl
@[simp] theorem succeed_rem (s : State) : (succeed s).rem = s.rem := rfl
@[simp] theorem succeed_cmd (s : State) : (succeed s).cmd = s.cmd := rfl
@[simp] theorem succeed_err (s : State) : (succeed s).err = 0 := rfl
@[simp] theorem succeed_sticky (s : State) : (succeed s).sticky = s.sticky := rfl
@[simp] theorem succeed_ilen (s : State) : (succeed s).ilen = s.ilen := rfl
@[simp] theorem succeed_olen (s : State) : (succeed s).olen = s.olen := rfl
@[simp] theorem succeed_clen (s : State) : (succeed s).clen = s.clen := rfl
@[simp] theorem succeed_ibuf (s : State) : (succeed s).ibuf = s.ibuf := rfl
@[simp] theorem succeed_obuf (s : State) : (succeed s).obuf = s.obuf := rfl
@[simp] theorem succeed_inReset (s : State) : (succeed s).inReset = s.inReset := rfl
@[simp] theorem succeed_draws (s : State) : (succeed s).draws = s.draws := rfl
@[simp] theorem succeed_hostQueue (s : State) : (succeed s).hostQueue = s.hostQueue := rfl
@[simp] theorem succeed_responses (s : State) : (succeed s).responses = s.responses := rfl

/-! ## raiseErr -/

@[simp] theorem raiseErr_cfg (e : Err) (s : State) : (raiseErr e s).cfg = s.cfg := rfl
@[simp] theorem raiseErr_a (e : Err) (s : State) : (raiseErr e s).a = s.a := rfl
@[simp] theorem raiseErr_b (e : Err) (s : State) : (raiseErr e s).b = s.b := rfl
@[simp] theorem raiseErr_r (e : Err) (s : State) : (raiseErr e s).r = s.r := rfl
@[simp] theorem raiseErr_rem (e : Err) (s : State) : (raiseErr e s).rem = s.rem := rfl
@[simp] theorem raiseErr_cmd (e : Err) (s : State) : (raiseErr e s).cmd = s.cmd := rfl
@[simp] theorem raiseErr_err (e : Err) (s : State) : (raiseErr e s).err = e.code := rfl
@[simp] theorem raiseErr_sticky (e : Err) (s : State) : (raiseErr e s).sticky = true := rfl
@[simp] theorem raiseErr_ilen (e : Err) (s : State) : (raiseErr e s).ilen = s.ilen := rfl
@[simp] theorem raiseErr_olen (e : Err) (s : State) : (raiseErr e s).olen = s.olen := rfl
@[simp] theorem raiseErr_clen (e : Err) (s : State) : (raiseErr e s).clen = s.clen := rfl
@[simp] theorem raiseErr_ibuf (e : Err) (s : State) : (raiseErr e s).ibuf = s.ibuf := rfl
@[simp] theorem raiseErr_obuf (e : Err) (s : State) : (raiseErr e s).obuf = s.obuf := rfl
@[simp] theorem raiseErr_inReset (e : Err) (s : State) : (raiseErr e s).inReset = s.inReset := rfl
@[simp] theorem raiseErr_draws (e : Err) (s : State) : (raiseErr e s).draws = s.draws := rfl
@[simp] theorem raiseErr_hostQueue (e : Err) (s : State) : (raiseErr e s).hostQueue = s.hostQueue := rfl
@[simp] theorem raiseErr_responses (e : Err) (s : State) : (raiseErr e s).responses = s.responses := rfl

/-! ## clearStatus -/

@[simp] theorem clearStatus_cfg (s : State) : (clearStatus s).cfg = s.cfg := rfl
@[simp] theorem clearStatus_a (s : State) : (clearStatus s).a = s.a := rfl
@[simp] theorem clearStatus_b (s : State) : (clearStatus s).b = s.b := rfl
@[simp] theorem clearStatus_r (s : State) : (clearStatus s).r = s.r := rfl
@[simp] theorem clearStatus_rem (s : State) : (clearStatus s).rem = s.rem := rfl
@[simp] theorem clearStatus_cmd (s : State) : (clearStatus s).cmd = s.cmd := rfl
@[simp] theorem clearStatus_err (s : State) : (clearStatus s).err = 0 := rfl
@[simp] theorem clearStatus_sticky (s : State) : (clearStatus s).sticky = false := rfl
@[simp] theorem clearStatus_ilen (s : State) : (clearStatus s).ilen = s.ilen := rfl
@[simp] theorem clearStatus_olen (s : State) : (clearStatus s).olen = s.olen := rfl
@[simp] theorem clearStatus_clen (s : State) : (clearStatus s).clen = s.clen := rfl
@[simp] theorem clearStatus_ibuf (s : State) : (clearStatus s).ibuf = s.ibuf := rfl
@[simp] theorem clearStatus_obuf (s : State) : (clearStatus s).obuf = s.obuf := rfl
@[simp] theorem clearStatus_inReset (s : State) : (clearStatus s).inReset = s.inReset := rfl
@[simp] theorem clearStatus_draws (s : State) : (clearStatus s).draws = s.draws := rfl
@[simp] theorem clearStatus_hostQueue (s : State) : (clearStatus s).hostQueue = s.hostQueue := rfl
@[simp] theorem clearStatus_responses (s : State) : (clearStatus s).responses = s.responses := rfl

/-! ## produce -/

@[simp] theorem produce_cfg (out : List Byte) (s : State) : (produce out s).cfg = s.cfg := rfl
@[simp] theorem produce_a (out : List Byte) (s : State) : (produce out s).a = s.a := rfl
@[simp] theorem produce_b (out : List Byte) (s : State) : (produce out s).b = s.b := rfl
@[simp] theorem produce_r (out : List Byte) (s : State) : (produce out s).r = s.r := rfl
@[simp] theorem produce_rem (out : List Byte) (s : State) : (produce out s).rem = s.rem := rfl
@[simp] theorem produce_cmd (out : List Byte) (s : State) : (produce out s).cmd = s.cmd := rfl
@[simp] theorem produce_err (out : List Byte) (s : State) : (produce out s).err = s.err := rfl
@[simp] theorem produce_sticky (out : List Byte) (s : State) : (produce out s).sticky = s.sticky := rfl
@[simp] theorem produce_ilen (out : List Byte) (s : State) : (produce out s).ilen = s.ilen := rfl
@[simp] theorem produce_olen (out : List Byte) (s : State) : (produce out s).olen = BitVec.ofNat 7 out.length := rfl
@[simp] theorem produce_clen (out : List Byte) (s : State) : (produce out s).clen = s.clen := rfl
@[simp] theorem produce_ibuf (out : List Byte) (s : State) : (produce out s).ibuf = s.ibuf := rfl
@[simp] theorem produce_obuf (out : List Byte) (s : State) : (produce out s).obuf = s.obuf.putFrom 0 (padded out) := rfl
@[simp] theorem produce_inReset (out : List Byte) (s : State) : (produce out s).inReset = s.inReset := rfl
@[simp] theorem produce_draws (out : List Byte) (s : State) : (produce out s).draws = s.draws := rfl
@[simp] theorem produce_hostQueue (out : List Byte) (s : State) : (produce out s).hostQueue = s.hostQueue := rfl
@[simp] theorem produce_responses (out : List Byte) (s : State) : (produce out s).responses = s.responses := rfl

/-! ## clearRegisters -/

@[simp] theorem clearRegisters_cfg (s : State) : (clearRegisters s).cfg = s.cfg := rfl
@[simp] theorem clearRegisters_a (s : State) : (clearRegisters s).a = 0 := rfl
@[simp] theorem clearRegisters_b (s : State) : (clearRegisters s).b = 0 := rfl
@[simp] theorem clearRegisters_r (s : State) : (clearRegisters s).r = 0 := rfl
@[simp] theorem clearRegisters_rem (s : State) : (clearRegisters s).rem = 0 := rfl
@[simp] theorem clearRegisters_cmd (s : State) : (clearRegisters s).cmd = 0 := rfl
@[simp] theorem clearRegisters_err (s : State) : (clearRegisters s).err = 0 := rfl
@[simp] theorem clearRegisters_sticky (s : State) : (clearRegisters s).sticky = false := rfl
@[simp] theorem clearRegisters_ilen (s : State) : (clearRegisters s).ilen = 0 := rfl
@[simp] theorem clearRegisters_olen (s : State) : (clearRegisters s).olen = 0 := rfl
@[simp] theorem clearRegisters_clen (s : State) : (clearRegisters s).clen = 0 := rfl
@[simp] theorem clearRegisters_ibuf (s : State) : (clearRegisters s).ibuf = s.ibuf := rfl
@[simp] theorem clearRegisters_obuf (s : State) : (clearRegisters s).obuf = s.obuf := rfl
@[simp] theorem clearRegisters_inReset (s : State) : (clearRegisters s).inReset = s.inReset := rfl
@[simp] theorem clearRegisters_draws (s : State) : (clearRegisters s).draws = s.draws := rfl
@[simp] theorem clearRegisters_hostQueue (s : State) : (clearRegisters s).hostQueue = s.hostQueue := rfl
@[simp] theorem clearRegisters_responses (s : State) : (clearRegisters s).responses = s.responses := rfl

/-! ## drawBuffers -/

@[simp] theorem drawBuffers_cfg (s : State) : (drawBuffers s).cfg = s.cfg := rfl
@[simp] theorem drawBuffers_a (s : State) : (drawBuffers s).a = s.a := rfl
@[simp] theorem drawBuffers_b (s : State) : (drawBuffers s).b = s.b := rfl
@[simp] theorem drawBuffers_r (s : State) : (drawBuffers s).r = s.r := rfl
@[simp] theorem drawBuffers_rem (s : State) : (drawBuffers s).rem = s.rem := rfl
@[simp] theorem drawBuffers_cmd (s : State) : (drawBuffers s).cmd = s.cmd := rfl
@[simp] theorem drawBuffers_err (s : State) : (drawBuffers s).err = s.err := rfl
@[simp] theorem drawBuffers_sticky (s : State) : (drawBuffers s).sticky = s.sticky := rfl
@[simp] theorem drawBuffers_ilen (s : State) : (drawBuffers s).ilen = s.ilen := rfl
@[simp] theorem drawBuffers_olen (s : State) : (drawBuffers s).olen = s.olen := rfl
@[simp] theorem drawBuffers_clen (s : State) : (drawBuffers s).clen = s.clen := rfl
@[simp] theorem drawBuffers_ibuf (s : State) : (drawBuffers s).ibuf = [] := rfl
@[simp] theorem drawBuffers_obuf (s : State) : (drawBuffers s).obuf = [] := rfl
@[simp] theorem drawBuffers_inReset (s : State) : (drawBuffers s).inReset = s.inReset := rfl
@[simp] theorem drawBuffers_draws (s : State) : (drawBuffers s).draws = s.draws + 2 * bufBytes := rfl
@[simp] theorem drawBuffers_hostQueue (s : State) : (drawBuffers s).hostQueue = s.hostQueue := rfl
@[simp] theorem drawBuffers_responses (s : State) : (drawBuffers s).responses = s.responses := rfl

/-! ## respond -/

@[simp] theorem respond_cfg (x : Response) (s : State) : (respond x s).cfg = s.cfg := rfl
@[simp] theorem respond_a (x : Response) (s : State) : (respond x s).a = s.a := rfl
@[simp] theorem respond_b (x : Response) (s : State) : (respond x s).b = s.b := rfl
@[simp] theorem respond_r (x : Response) (s : State) : (respond x s).r = s.r := rfl
@[simp] theorem respond_rem (x : Response) (s : State) : (respond x s).rem = s.rem := rfl
@[simp] theorem respond_cmd (x : Response) (s : State) : (respond x s).cmd = s.cmd := rfl
@[simp] theorem respond_err (x : Response) (s : State) : (respond x s).err = s.err := rfl
@[simp] theorem respond_sticky (x : Response) (s : State) : (respond x s).sticky = s.sticky := rfl
@[simp] theorem respond_ilen (x : Response) (s : State) : (respond x s).ilen = s.ilen := rfl
@[simp] theorem respond_olen (x : Response) (s : State) : (respond x s).olen = s.olen := rfl
@[simp] theorem respond_clen (x : Response) (s : State) : (respond x s).clen = s.clen := rfl
@[simp] theorem respond_ibuf (x : Response) (s : State) : (respond x s).ibuf = s.ibuf := rfl
@[simp] theorem respond_obuf (x : Response) (s : State) : (respond x s).obuf = s.obuf := rfl
@[simp] theorem respond_inReset (x : Response) (s : State) : (respond x s).inReset = s.inReset := rfl
@[simp] theorem respond_draws (x : Response) (s : State) : (respond x s).draws = s.draws := rfl
@[simp] theorem respond_hostQueue (x : Response) (s : State) : (respond x s).hostQueue = s.hostQueue := rfl
@[simp] theorem respond_responses (x : Response) (s : State) : (respond x s).responses = x :: s.responses := rfl

/-! ## placeCommand -/

@[simp] theorem placeCommand_cfg (s : State) (v : Word) : (placeCommand s v).cfg = s.cfg := rfl
@[simp] theorem placeCommand_a (s : State) (v : Word) : (placeCommand s v).a = s.a := rfl
@[simp] theorem placeCommand_b (s : State) (v : Word) : (placeCommand s v).b = s.b := rfl
@[simp] theorem placeCommand_r (s : State) (v : Word) : (placeCommand s v).r = s.r := rfl
@[simp] theorem placeCommand_rem (s : State) (v : Word) : (placeCommand s v).rem = s.rem := rfl
@[simp] theorem placeCommand_cmd (s : State) (v : Word) : (placeCommand s v).cmd = s.cmd := rfl
@[simp] theorem placeCommand_err (s : State) (v : Word) : (placeCommand s v).err = s.err := rfl
@[simp] theorem placeCommand_sticky (s : State) (v : Word) : (placeCommand s v).sticky = s.sticky := rfl
@[simp] theorem placeCommand_ilen (s : State) (v : Word) : (placeCommand s v).ilen = s.ilen := rfl
@[simp] theorem placeCommand_olen (s : State) (v : Word) : (placeCommand s v).olen = s.olen := rfl
@[simp] theorem placeCommand_clen (s : State) (v : Word) : (placeCommand s v).clen = s.clen := rfl
@[simp] theorem placeCommand_ibuf (s : State) (v : Word) : (placeCommand s v).ibuf = s.ibuf := rfl
@[simp] theorem placeCommand_obuf (s : State) (v : Word) : (placeCommand s v).obuf = s.obuf := rfl
@[simp] theorem placeCommand_inReset (s : State) (v : Word) : (placeCommand s v).inReset = false := rfl
@[simp] theorem placeCommand_draws (s : State) (v : Word) : (placeCommand s v).draws = s.draws := rfl
@[simp] theorem placeCommand_hostQueue (s : State) (v : Word) : (placeCommand s v).hostQueue = cmdWrite v :: s.hostQueue := rfl
@[simp] theorem placeCommand_responses (s : State) (v : Word) : (placeCommand s v).responses = s.responses := rfl

end Sys2Proof.Machine
end

