-- ==== Sys2Proof/Laws/Commands.lean ====
section
/-! SUPPORT. What a command can do, said once: every command answers a next state, and that state is
a raise, a cleared STATUS, or a success that writes result registers and OBUF only (60_exceptions.md
R172, 10_state.md R41). -/

namespace Sys2Proof.Machine

@[simp] theorem finish_ok (s t : State) : finish s (.ok t) = .next (succeed t) := rfl

@[simp] theorem finish_error (s : State) (e : Err) : finish s (.error e) = .next (raiseErr e s) := rfl

/-- A success of `s`: only R, REM, OBUF, OLEN, CLEN and ERR may differ, and ERR is 0. -/
def Succeeds (s t : State) : Prop :=
  t = { s with r := t.r, rem := t.rem, obuf := t.obuf, olen := t.olen, clen := t.clen, err := 0 }

/-- The three ways a command ends. -/
def Ends (s t : State) : Prop := (∃ e, t = raiseErr e s) ∨ t = clearStatus s ∨ Succeeds s t

theorem wide_ends (res : Nat) (s : State) : ∃ t, wide res s = .next t ∧ Ends s t :=
  ⟨_, rfl, .inr (.inr rfl)⟩

theorem finish_ends {s : State} {x : Except Err State} (h : ∀ t, x = .ok t → Succeeds s (succeed t)) :
    ∃ t, finish s x = .next t ∧ Ends s t := by
  cases x with
  | ok t => exact ⟨_, rfl, .inr (.inr (h t rfl))⟩
  | error e => exact ⟨_, rfl, .inl ⟨e, rfl⟩⟩

theorem divide_ok {w : Nat} {s t : State} (h : divide w s = .ok t) :
    divisor s.b ≠ 0
      ∧ t = { s with
              r := zext128 (operand w s.a / divisor s.b)
              rem := BitVec.ofNat 16 (operand w s.a % divisor s.b) } := by
  simp only [divide] at h
  split at h
  · cases h
  · exact ⟨‹_›, by cases h; rfl⟩

theorem vlEncode_ok {s t : State} (h : vlEncode s = .ok t) :
    ∃ record, vlEncode? s.cfg.vlTable s.a.toNat = some record ∧ t = produce record s := by
  simp only [vlEncode] at h
  split at h
  · cases h; exact ⟨_, ‹_›, rfl⟩
  · cases h

theorem vlDecode_ok {s t : State} (h : vlDecode s = .ok t) :
    s.ilen.toNat ≤ bufBytes ∧ s.ilen.toNat ≠ 0
      ∧ ∃ L c, vlheader s.cfg.vlTable (s.ibufByte 0) = some (L, c) ∧ L ≤ s.ilen.toNat
        ∧ t = { s with r := zext128 (strip (s.ibufBytes L) c.mask), clen := BitVec.ofNat 7 L } := by
  simp only [vlDecode] at h
  split at h
  · cases h
  split at h
  · cases h
  split at h
  · cases h
  split at h
  · cases h
  · cases h; exact ⟨by omega, ‹_›, _, _, ‹_›, by omega, rfl⟩

theorem b59Encode_ok {s t : State} (h : b59Encode s = .ok t) :
    s.ilen.toNat ≤ bufBytes
      ∧ (b59text s.cfg (s.ibufBytes s.ilen.toNat)).length ≤ bufBytes
      ∧ t = produce (b59text s.cfg (s.ibufBytes s.ilen.toNat)) s := by
  simp only [b59Encode] at h
  split at h
  · cases h
  split at h
  · cases h
  · cases h; exact ⟨by omega, by omega, rfl⟩

theorem b59Decode_ok {s t : State} (h : b59Decode s = .ok t) :
    s.ilen.toNat ≤ bufBytes ∧ s.ilen.toNat ≠ 0
      ∧ ∃ e, textDigits? s.cfg (s.ibufBytes s.ilen.toNat) = some e
        ∧ e.getLastD 0 = chk e.dropLast ∧ t = produce (b59bytes e.dropLast) s := by
  simp only [b59Decode] at h
  split at h
  · cases h
  split at h
  · cases h
  split at h
  · cases h
  split at h
  · cases h
  · cases h; exact ⟨by omega, ‹_›, _, ‹_›, by simp_all, rfl⟩

/-- Every command answers a next state, which is one of the three ends. -/
theorem exec_ends (i : Instr) (s : State) : ∃ t, exec i s = .next t ∧ Ends s t := by
  have hd : ∀ w, ∃ t, finish s (divide w s) = .next t ∧ Ends s t := fun w =>
    finish_ends fun t h => by rw [(divide_ok h).2]; rfl
  cases i with
  | div64 => exact hd 64
  | div128 => exact hd 128
  | nop => exact ⟨_, rfl, .inr (.inr rfl)⟩
  | clrerr => exact ⟨_, rfl, .inr (.inl rfl)⟩
  | vlenc => exact finish_ends fun t h => by obtain ⟨_, _, rfl⟩ := vlEncode_ok h; rfl
  | vldec => exact finish_ends fun t h => by obtain ⟨_, _, _, _, _, _, rfl⟩ := vlDecode_ok h; rfl
  | b59enc => exact finish_ends fun t h => by obtain ⟨_, _, rfl⟩ := b59Encode_ok h; rfl
  | b59dec => exact finish_ends fun t h => by obtain ⟨_, _, _, _, _, rfl⟩ := b59Decode_ok h; rfl
  | add64 | add128 | sub64 | sub128 | mul64 | mul128 | and64 | and128 | or64 | or128 | xor64 | xor128 =>
    exact wide_ends _ s
  | shl64 | shl128 | shr64 | shr128 => exact wide_ends _ s

theorem exec_inv {i : Instr} {s t : State} (h : exec i s = .next t) : Ends s t := by
  obtain ⟨u, hu, he⟩ := exec_ends i s
  rw [hu] at h; cases h; exact he

/-- Every error code is one of 1..7 (60_exceptions.md R170). -/
theorem raise_code_le (e : Err) : e.code.toNat ≤ 7 ∧ e.code ≠ 0 := by cases e <;> decide

end Sys2Proof.Machine
end

