-- ==== Sys2Proof/Laws/Memory.lean ====
section
/-! SUPPORT. Byte arrays: reading after writing, and every write keeps the canonical form. -/

namespace Sys2Proof.Machine

theorem Memory.byte?_put (m : Memory) (i : Nat) (v : Byte) (j : Nat) :
    (m.put i v).byte? j = if j = i then some v else m.byte? j := by
  induction m with
  | nil => simp [Memory.put, Memory.byte?]
  | cons e m ih =>
    obtain ⟨k, b⟩ := e
    simp only [Memory.put]
    split
    · simp [Memory.byte?]
    · split
      · subst_vars
        simp only [Memory.byte?]
        split <;> simp_all
      · simp only [Memory.byte?, ih]
        split
        · rw [if_neg (by omega)]
        · rfl

@[simp] theorem Memory.byte?_put_same (m : Memory) (i : Nat) (v : Byte) :
    (m.put i v).byte? i = some v := by simp [Memory.byte?_put]

theorem Memory.byte?_put_other (m : Memory) {i j : Nat} (v : Byte) (h : j ≠ i) :
    (m.put i v).byte? j = m.byte? j := by simp [Memory.byte?_put, h]

theorem Memory.byte?_putFrom_outside (m : Memory) (i : Nat) (bs : List Byte) (j : Nat)
    (h : j < i ∨ i + bs.length ≤ j) : (m.putFrom i bs).byte? j = m.byte? j := by
  induction bs generalizing m i with
  | nil => rfl
  | cons b bs ih =>
    simp only [List.length_cons] at h
    rw [Memory.putFrom, ih _ _ (by omega), Memory.byte?_put_other _ _ (by omega)]

theorem Memory.byte?_putFrom_inside (m : Memory) (i : Nat) (bs : List Byte) (j : Nat)
    (h : j < bs.length) : (m.putFrom i bs).byte? (i + j) = bs[j]? := by
  induction bs generalizing m i j with
  | nil => simp at h
  | cons b bs ih =>
    rw [Memory.putFrom]
    cases j with
    | zero => rw [Memory.byte?_putFrom_outside _ _ _ _ (by omega)]; simp
    | succ j =>
      rw [show i + (j + 1) = i + 1 + j by omega, ih _ _ _ (by simpa using h)]
      simp

theorem Memory.risesFrom_put (m : Memory) (lo i : Nat) (v : Byte) (hi : lo ≤ i)
    (h : m.risesFrom lo = true) : (m.put i v).risesFrom lo = true := by
  induction m generalizing lo with
  | nil => simp [Memory.put, Memory.risesFrom, hi]
  | cons e m ih =>
    obtain ⟨k, b⟩ := e
    simp only [Memory.risesFrom, Bool.and_eq_true, decide_eq_true_eq] at h
    simp only [Memory.put]
    split
    · simp only [Memory.risesFrom, Bool.and_eq_true, decide_eq_true_eq]
      exact ⟨hi, by omega, h.2⟩
    · split
      · subst_vars
        simp only [Memory.risesFrom, Bool.and_eq_true, decide_eq_true_eq]
        exact h
      · simp only [Memory.risesFrom, Bool.and_eq_true, decide_eq_true_eq]
        exact ⟨h.1, ih _ (by omega) h.2⟩

/-- Writing a byte keeps the canonical form. -/
theorem Memory.wf_put (m : Memory) (i : Nat) (v : Byte) (h : m.wf = true) : (m.put i v).wf = true :=
  Memory.risesFrom_put m 0 i v (Nat.zero_le i) h

/-- Writing a byte string keeps the canonical form. -/
theorem Memory.wf_putFrom (m : Memory) (i : Nat) (bs : List Byte) (h : m.wf = true) :
    (m.putFrom i bs).wf = true := by
  induction bs generalizing m i with
  | nil => exact h
  | cons b bs ih => exact ih _ _ (m.wf_put i b h)

theorem Memory.inBuffer_put (m : Memory) (i : Nat) (v : Byte) (hi : i < bufBytes)
    (h : m.inBuffer = true) : (m.put i v).inBuffer = true := by
  induction m with
  | nil => simp [Memory.put, Memory.inBuffer, hi]
  | cons e m ih =>
    obtain ⟨k, b⟩ := e
    simp only [Memory.inBuffer, List.all_cons, Bool.and_eq_true, decide_eq_true_eq] at h ih
    simp only [Memory.put]
    split
    · simp [Memory.inBuffer, hi, h.1, h.2]
    · split
      · simpa [Memory.inBuffer, hi] using h.2
      · simp only [Memory.inBuffer, List.all_cons, Bool.and_eq_true, decide_eq_true_eq]
        exact ⟨h.1, ih h.2⟩

/-- Writing a byte string that ends inside the buffer keeps the array inside it. -/
theorem Memory.inBuffer_putFrom (m : Memory) (i : Nat) (bs : List Byte)
    (hi : i + bs.length ≤ bufBytes) (h : m.inBuffer = true) :
    (m.putFrom i bs).inBuffer = true := by
  induction bs generalizing m i with
  | nil => exact h
  | cons b bs ih =>
    simp only [List.length_cons] at hi
    exact ih _ _ (by omega) (m.inBuffer_put i b (by omega) h)

/-! ## The buffers of a state -/

theorem padded_length (out : List Byte) (h : out.length ≤ bufBytes) :
    (padded out).length = bufBytes := by
  simp [padded]; omega

/-- After a producing command, OBUF reads its output, then zeros to byte 63. -/
theorem produce_obufByte (out : List Byte) (s : State) (h : out.length ≤ bufBytes) (i : Nat)
    (hi : i < bufBytes) : (produce out s).obufByte i = out.getD i 0 := by
  have hl := padded_length out h
  have := Memory.byte?_putFrom_inside s.obuf 0 (padded out) i (by omega)
  rw [Nat.zero_add] at this
  simp only [State.obufByte, produce_obuf, this]
  by_cases h1 : i < out.length
  · simp [padded, h1, List.getElem?_append_left]
  · rw [List.getElem?_eq_getElem (by omega)]
    simp [padded, List.getElem_append_right, Nat.le_of_not_lt h1]

end Sys2Proof.Machine
end

