-- ==== Sys2Proof/Laws/Words.lean ====
section
/-! SUPPORT. Register words, buffer lanes and the address map. -/

namespace Sys2Proof.Machine

theorem getWord_setWord_same (x : Wide) (k : Fin 4) (v : Word) : getWord (setWord x k v) k = v := by
  apply BitVec.eq_of_getLsbD_eq
  intro i hi
  have hk := k.isLt
  have h1 : 32 * k.val + i < 128 := by omega
  have h4 : (0xFFFFFFFF#128) = (BitVec.allOnes 32).setWidth 128 := by decide
  have h3 : 32 * k.val + i - 32 * k.val = i := by omega
  have h5 : i < 128 := by omega
  simp only [getWord, setWord, BitVec.getLsbD_extractLsb', BitVec.getLsbD_or, BitVec.getLsbD_and,
    BitVec.getLsbD_not, BitVec.getLsbD_shiftLeft, BitVec.getLsbD_setWidth, hi, h1, h4, h3, h5,
    BitVec.getLsbD_allOnes]
  simp

theorem getWord_setWord_other (x : Wide) {j k : Fin 4} (v : Word) (h : j ≠ k) :
    getWord (setWord x k v) j = getWord x j := by
  apply BitVec.eq_of_getLsbD_eq
  intro i hi
  have hj := j.isLt
  have hk := k.isLt
  have hne : j.val ≠ k.val := fun e => h (Fin.ext e)
  have h1 : 32 * j.val + i < 128 := by omega
  have h4 : (0xFFFFFFFF#128) = (BitVec.allOnes 32).setWidth 128 := by decide
  simp only [getWord, setWord, BitVec.getLsbD_extractLsb', BitVec.getLsbD_or, BitVec.getLsbD_and,
    BitVec.getLsbD_not, BitVec.getLsbD_shiftLeft, BitVec.getLsbD_setWidth, hi, h1, h4,
    BitVec.getLsbD_allOnes]
  by_cases hlt : 32 * j.val + i < 32 * k.val
  · simp [hlt]
  · have h5 : 32 ≤ 32 * j.val + i - 32 * k.val := by omega
    have h6 : ¬ (32 * j.val + i - 32 * k.val < 32) := by omega
    simp [hlt, h6, BitVec.getLsbD_of_ge _ _ h5]

theorem laneByte_laneWord (b0 b1 b2 b3 : Byte) :
    laneByte (laneWord b0 b1 b2 b3) 0 = b0 ∧ laneByte (laneWord b0 b1 b2 b3) 1 = b1
      ∧ laneByte (laneWord b0 b1 b2 b3) 2 = b2 ∧ laneByte (laneWord b0 b1 b2 b3) 3 = b3 := by
  refine ⟨?_, ?_, ?_, ?_⟩ <;>
  · apply BitVec.eq_of_getLsbD_eq
    intro i hi
    simp only [laneByte, laneWord, BitVec.getLsbD_append, BitVec.getLsbD_extractLsb', hi]
    simp [show ∀ k, 8 ≤ k → ¬ (k + i < 8) from fun k h => by omega,
      show 24 + i - 8 - 8 - 8 = i by omega, show 16 + i - 8 - 8 = i by omega, hi,
      show ¬ (24 + i - 8 < 8) by omega, show ¬ (24 + i - 8 - 8 < 8) by omega, show ¬ (16 + i - 8 < 8) by omega]

theorem laneWord_laneByte (v : Word) :
    laneWord (laneByte v 0) (laneByte v 1) (laneByte v 2) (laneByte v 3) = v := by
  apply BitVec.eq_of_getLsbD_eq
  intro i hi
  simp only [laneWord, laneByte, BitVec.getLsbD_append, BitVec.getLsbD_extractLsb']
  split
  · simp_all
  · split
    · rw [show 24 - 8 * 2 + (i - 8) = i by omega]; simp; omega
    · split
      · rw [show 24 - 8 * 1 + (i - 8 - 8) = i by omega]; simp; omega
      · rw [show 24 - 8 * 0 + (i - 8 - 8 - 8) = i by omega]; simp; omega

theorem mem_allRegs (reg : Reg) : reg ∈ allRegs := by
  cases reg with
  | a k | b k | r k | ibuf k | obuf k => revert k; decide
  | cmd | status | ilen | olen | clen | rem => decide

/-- The word at a name's offset is that name's. -/
theorem regAt?_offset (reg : Reg) : regAt? reg.offset = some reg := by
  cases reg with
  | a k | b k | r k | ibuf k | obuf k => revert k; decide
  | cmd | status | ilen | olen | clen | rem => decide

/-- A name found at an offset stands at that offset. -/
theorem regAt?_some {off : Offset} {reg : Reg} (h : regAt? off = some reg) : off = reg.offset := by
  have := List.find?_some h
  exact (by simpa using this : reg.offset = off).symm

/-- An offset is reserved exactly when no name stands there. -/
theorem regAt?_none {off : Offset} : regAt? off = none ↔ ∀ reg : Reg, reg.offset ≠ off := by
  simp [regAt?, mem_allRegs]

/-- Every name's offset is a multiple of 4. -/
theorem offset_aligned (reg : Reg) : reg.offset.toNat % 4 = 0 := by
  cases reg with
  | a k | b k | r k | ibuf k | obuf k => revert k; decide
  | cmd | status | ilen | olen | clen | rem => decide

end Sys2Proof.Machine
end

