-- ==== Sys2Proof/Laws/Port.lean ====
section
/-! SUPPORT. What one event can do, said once. -/

namespace Sys2Proof.Machine

@[simp] theorem withResponse_next (x : Response) (s : State) :
    withResponse x (.next s) = .next (respond x s) := rfl

@[simp] theorem step_eq (s : State) : step s = stepHost s := rfl

theorem stepHost_nil {s : State} (h : s.hostQueue = []) : stepHost s = .next s := by
  simp [stepHost, h]

theorem stepHost_cons {s : State} {e : HostEvent} {rest : List HostEvent}
    (h : s.hostQueue = e :: rest) : stepHost s = serveEvent e { s with hostQueue := rest } := by
  simp [stepHost, h]

/-- A performed command word ends in one of the three ways. -/
theorem performCommand_ends (v : Word) (s : State) :
    ∃ t, performCommand v s = .next t ∧ Ends s t := by
  simp only [performCommand]
  split
  · exact exec_ends _ s
  · exact ⟨_, rfl, .inl ⟨_, rfl⟩⟩

/-- A word write stores into CMD and performs a command, stores into a read/write word, or does
nothing. -/
theorem writeWord_cases (off : Offset) (v : Word) (s : State) :
    (regAt? off = some .cmd ∧ writeWord off v s = performCommand v { s with cmd := v })
      ∨ (∃ reg, reg ≠ .cmd ∧ regAt? off = some reg ∧ writeWord off v s = .next (writeReg reg v s))
      ∨ (regAt? off = none ∧ writeWord off v s = .next s) := by
  rcases h : regAt? off with _ | reg
  · exact .inr (.inr ⟨rfl, by simp [writeWord, h]⟩)
  · by_cases hc : reg = .cmd
    · subst hc; exact .inl ⟨rfl, by simp [writeWord, h, writeReg]⟩
    · refine .inr (.inl ⟨reg, hc, rfl, ?_⟩)
      cases reg <;> first | exact absurd rfl hc | simp [writeWord, h]

/-- An access that is not served takes a bus error and changes nothing else. -/
theorem serveAccess_refused {x : Access} {s : State} (h : s.inReset = true ∨ x.legal = false) :
    serveAccess x s = .next (respond .busError s) := by
  rcases h with h | h <;> simp [serveAccess, h]

theorem serveAccess_read {n : Nat} {off : Offset} {s : State} (hr : s.inReset = false)
    (hl : (Access.read n off).legal = true) :
    serveAccess (.read n off) s = .next (respond (.data (readWord off s)) s) := by
  simp [serveAccess, hr, hl]

theorem serveAccess_write {n : Nat} {off : Offset} {v : Word} {s : State} (hr : s.inReset = false)
    (hl : (Access.write n off v).legal = true) :
    serveAccess (.write n off v) s = withResponse .done (writeWord off v s) := by
  simp [serveAccess, hr, hl]

/-- The access that issues a command is served. -/
theorem cmdWrite_legal (v : Word) : (Access.write 4 Reg.cmd.offset v).legal = true := rfl

/-- Serving the write of a command word, the reset input released. -/
theorem serveEvent_cmdWrite {s : State} (v : Word) (hr : s.inReset = false) :
    serveEvent (cmdWrite v) s = withResponse .done (performCommand v { s with cmd := v }) := by
  rw [show serveEvent (cmdWrite v) s = serveAccess (.write 4 Reg.cmd.offset v) s from rfl,
    serveAccess_write hr (cmdWrite_legal v)]
  simp [writeWord, regAt?_offset, writeReg]

/-! ## The queue of the host -/

/-- A result with the host's queue replaced. -/
def withQueue (q : List HostEvent) : Result → Result
  | .next t => .next { t with hostQueue := q }
  | .fault f => .fault f
  | .refused y => .refused y

/-- A command neither reads nor writes the host's queue. -/
theorem exec_withQueue (i : Instr) (s : State) (q : List HostEvent) :
    exec i { s with hostQueue := q } = withQueue q (exec i s) := by
  have hb : ∀ k, State.ibufByte { s with hostQueue := q } k = s.ibufByte k := fun _ => rfl
  have hbs : ∀ k, State.ibufBytes { s with hostQueue := q } k = s.ibufBytes k := fun _ => rfl
  have hd : ∀ w, finish { s with hostQueue := q } (divide w { s with hostQueue := q })
      = withQueue q (finish s (divide w s)) := by
    intro w; simp only [divide]; split <;> rfl
  cases i with
  | div64 => exact hd _
  | div128 => exact hd _
  | vlenc => simp only [exec, execVlenc, vlEncode]; split <;> rfl
  | vldec =>
    simp only [exec, execVldec, vlDecode, hb, hbs]
    repeat' split
    all_goals rfl
  | b59enc =>
    simp only [exec, execB59enc, b59Encode, hbs]
    repeat' split
    all_goals rfl
  | b59dec =>
    simp only [exec, execB59dec, b59Decode, hbs]
    repeat' split
    all_goals rfl
  | add64 | add128 | sub64 | sub128 | mul64 | mul128 | and64 | and128 | or64 | or128 | xor64 | xor128
  | nop | clrerr => rfl
  | shl64 | shl128 | shr64 | shr128 => rfl

end Sys2Proof.Machine
end

