-- ==== Sys2Proof/Laws/HostProgram.lean ====
section
/-! SUPPORT. What the accesses of a host statement do (30_encoding.md R78, R79), said once: one read,
one write, a list of events cut in two, and a row of buffer writes. -/

namespace Sys2Proof.Machine

/-- Events served one after another can be cut in two. -/
theorem runEvents_append {xs ys : List HostEvent} {s t : State} (h : runEvents xs s = .next t) :
    runEvents (xs ++ ys) s = runEvents ys t := by
  induction xs generalizing s with
  | nil => cases h; rfl
  | cons x xs ih =>
    simp only [runEvents, List.cons_append] at h ⊢
    split at h
    · exact ih h
    · cases h
    · cases h

/-- A read of a name answers its word and changes nothing else. -/
theorem serveEvent_rd {s : State} (reg : Reg) (hr : s.inReset = false) :
    serveEvent (rd reg) s = .next (respond (.data (readWord reg.offset s)) s) :=
  serveAccess_read hr (by simp [Access.legal, Access.bytes, Access.offset, offset_aligned])

/-- A write of a name other than CMD stores its word, if the name can be written. -/
theorem serveEvent_wr {s : State} {reg : Reg} (v : Word) (hc : reg ≠ .cmd) (hr : s.inReset = false) :
    serveEvent (wr reg v) s = .next (respond .done (writeReg reg v s)) := by
  have h : writeWord reg.offset v s = .next (writeReg reg v s) := by
    cases reg <;> first | exact absurd rfl hc | simp [writeWord, regAt?_offset]
  rw [show serveEvent (wr reg v) s = serveAccess (.write 4 reg.offset v) s from rfl,
    serveAccess_write hr (by simp [Access.legal, Access.bytes, Access.offset, offset_aligned]), h]
  rfl

/-- A word write to IBUF replaces its four bytes, in lane order, and no other. -/
theorem writeReg_ibufByte (k : Fin 16) (v : Word) (s : State) (i : Nat) :
    (writeReg (.ibuf k) v s).ibufByte i
      = if 4 * k.val ≤ i ∧ i < 4 * k.val + 4 then laneByte v (i - 4 * k.val) else s.ibufByte i := by
  simp only [writeReg, State.ibufByte]
  split
  · next h =>
    obtain ⟨j, rfl⟩ := Nat.exists_eq_add_of_le h.1
    rw [Memory.byte?_putFrom_inside _ _ _ _ (by simp; omega), Nat.add_sub_cancel_left]
    obtain rfl | rfl | rfl | rfl : j = 0 ∨ j = 1 ∨ j = 2 ∨ j = 3 := by omega
    all_goals rfl
  · next h =>
    rw [Memory.byte?_putFrom_outside _ _ _ _ (by simp; omega)]

/-- A state in which only IBUF and the port's answers differ. -/
def OnlyIbuf (s t : State) (answers : List Response) : Prop :=
  t = { s with ibuf := t.ibuf, responses := answers ++ s.responses }

/-- A row of word writes to IBUF from its start stores their lanes there and keeps every later byte. -/
theorem runEvents_storeWords (word : Nat → Word) (s : State) (hr : s.inReset = false) (m : Nat)
    (hm : m ≤ 16) :
    ∃ t, runEvents ((List.range m).map fun k => wr (.ibuf (Fin.ofNat 16 k)) (word k)) s = .next t
      ∧ OnlyIbuf s t (List.replicate m Response.done)
      ∧ ∀ i, t.ibufByte i = if i < 4 * m then laneByte (word (i / 4)) (i % 4) else s.ibufByte i := by
  induction m with
  | zero => exact ⟨s, rfl, rfl, fun i => by simp⟩
  | succ m ih =>
    obtain ⟨t, h, hf, hb⟩ := ih (by omega)
    have ht : t.inReset = false := by rw [hf]; exact hr
    have hk : (Fin.ofNat 16 m).val = m := Nat.mod_eq_of_lt hm
    refine ⟨respond .done (writeReg (.ibuf (Fin.ofNat 16 m)) (word m) t), ?_, ?_, fun i => ?_⟩
    · rw [List.range_succ, List.map_append, runEvents_append h]
      simp only [List.map_cons, List.map_nil, runEvents]
      rw [serveEvent_wr _ (by simp) ht]
    · rw [OnlyIbuf] at hf ⊢
      rw [hf]
      rfl
    · rw [show State.ibufByte (respond .done (writeReg (.ibuf (Fin.ofNat 16 m)) (word m) t)) i
          = (writeReg (.ibuf (Fin.ofNat 16 m)) (word m) t).ibufByte i from rfl,
        writeReg_ibufByte, hk, hb]
      by_cases h1 : i < 4 * m
      · rw [if_neg (by omega), if_pos h1, if_pos (by omega)]
      · by_cases h2 : i < 4 * (m + 1)
        · rw [if_pos (by omega), if_pos h2, show i / 4 = m by omega, show i % 4 = i - 4 * m by omega]
        · rw [if_neg (by omega), if_neg h1, if_neg h2]

/-- The lanes of a string's words are its bytes, and zeros behind them (30_encoding.md R79). -/
theorem laneByte_stringWord (str : List Byte) (i : Nat) :
    laneByte (stringWord str (i / 4)) (i % 4) = str.getD i 0 := by
  obtain ⟨h0, h1, h2, h3⟩ := laneByte_laneWord (str.getD (4 * (i / 4)) 0)
    (str.getD (4 * (i / 4) + 1) 0) (str.getD (4 * (i / 4) + 2) 0) (str.getD (4 * (i / 4) + 3) 0)
  obtain h | h | h | h : i % 4 = 0 ∨ i % 4 = 1 ∨ i % 4 = 2 ∨ i % 4 = 3 := by omega
  · rw [h, stringWord, h0, show 4 * (i / 4) = i by omega]
  · rw [h, stringWord, h1, show 4 * (i / 4) + 1 = i by omega]
  · rw [h, stringWord, h2, show 4 * (i / 4) + 2 = i by omega]
  · rw [h, stringWord, h3, show 4 * (i / 4) + 3 = i by omega]

/-- The lanes of OBUF's words are its bytes (20_memory.md R51). -/
theorem laneByte_obufWord (s : State) {i : Nat} (hi : i < 64) :
    laneByte (obufWord s (i / 4)) (i % 4) = s.obufByte i := by
  have hk : (Fin.ofNat 16 (i / 4)).val = i / 4 := Nat.mod_eq_of_lt (by omega)
  have hw : obufWord s (i / 4)
      = laneWord (s.obufByte (4 * (i / 4))) (s.obufByte (4 * (i / 4) + 1))
          (s.obufByte (4 * (i / 4) + 2)) (s.obufByte (4 * (i / 4) + 3)) := by
    simp only [obufWord, readWord, regAt?_offset, hk]
  obtain ⟨h0, h1, h2, h3⟩ := laneByte_laneWord (s.obufByte (4 * (i / 4)))
    (s.obufByte (4 * (i / 4) + 1)) (s.obufByte (4 * (i / 4) + 2)) (s.obufByte (4 * (i / 4) + 3))
  obtain h | h | h | h : i % 4 = 0 ∨ i % 4 = 1 ∨ i % 4 = 2 ∨ i % 4 = 3 := by omega
  · rw [h, hw, h0, show 4 * (i / 4) = i by omega]
  · rw [h, hw, h1, show 4 * (i / 4) + 1 = i by omega]
  · rw [h, hw, h2, show 4 * (i / 4) + 2 = i by omega]
  · rw [h, hw, h3, show 4 * (i / 4) + 3 = i by omega]

end Sys2Proof.Machine
end

