-- ==== Sys2Proof/Laws/PerInstr.lean ====
section
/-! SUPPORT. Statements made of every command as syntax, one lemma per constructor. OpcodeRow: the
encoded word of a command lies in the opcode table's row of its mnemonic (30_encoding.md R75, R77). -/

namespace Sys2Proof.Laws.OpcodeRow

/-- The command's word is covered by a row of spec/opcode_table.json that has its mnemonic. -/
def Statement (i : Instr) : Prop :=
  ∃ row ∈ opcodeTable, row.mnemonic = i.mnemonic ∧ row.covers (encode i) = true

theorem add64 : Statement .add64 := by unfold Statement; decide

theorem add128 : Statement .add128 := by unfold Statement; decide

theorem sub64 : Statement .sub64 := by unfold Statement; decide

theorem sub128 : Statement .sub128 := by unfold Statement; decide

theorem mul64 : Statement .mul64 := by unfold Statement; decide

theorem mul128 : Statement .mul128 := by unfold Statement; decide

theorem div64 : Statement .div64 := by unfold Statement; decide

theorem div128 : Statement .div128 := by unfold Statement; decide

theorem shl64 (n : BitVec 7) : Statement (.shl64 n) :=
  ⟨⟨"SHL.64", 0x00000005, 0xFFFF80FF⟩, by decide, rfl, by revert n; decide⟩

theorem shl128 (n : BitVec 7) : Statement (.shl128 n) :=
  ⟨⟨"SHL.128", 0x00000045, 0xFFFF80FF⟩, by decide, rfl, by revert n; decide⟩

theorem shr64 (n : BitVec 7) : Statement (.shr64 n) :=
  ⟨⟨"SHR.64", 0x00000006, 0xFFFF80FF⟩, by decide, rfl, by revert n; decide⟩

theorem shr128 (n : BitVec 7) : Statement (.shr128 n) :=
  ⟨⟨"SHR.128", 0x00000046, 0xFFFF80FF⟩, by decide, rfl, by revert n; decide⟩

theorem and64 : Statement .and64 := by unfold Statement; decide

theorem and128 : Statement .and128 := by unfold Statement; decide

theorem or64 : Statement .or64 := by unfold Statement; decide

theorem or128 : Statement .or128 := by unfold Statement; decide

theorem xor64 : Statement .xor64 := by unfold Statement; decide

theorem xor128 : Statement .xor128 := by unfold Statement; decide

theorem nop : Statement .nop := by unfold Statement; decide

theorem vlenc : Statement .vlenc := by unfold Statement; decide

theorem vldec : Statement .vldec := by unfold Statement; decide

theorem b59enc : Statement .b59enc := by unfold Statement; decide

theorem b59dec : Statement .b59dec := by unfold Statement; decide

theorem clrerr : Statement .clrerr := by unfold Statement; decide

end Sys2Proof.Laws.OpcodeRow
end

