-- ==== Sys2Proof/Tests/Slice0.lean ====
section
/-! SUPPORT. Named tests. Expected values are the spec's own: the words are written out from the
formats of 30_encoding.md R71-R73, the results from 95_test_vectors.md (cited V<n>). The witnesses
show that the hypotheses of each statement can be met, clause by clause at the ends of its ranges. -/

namespace Sys2Proof.Tests

open Sys2Proof.Machine

/-! ## Helpers -/

/-- Does a meaning answer a next state of which f holds? -/
def after (o : Result) (f : State → Bool) : Bool :=
  match o with
  | .next t => f t
  | .fault _ => false
  | .refused _ => false

theorem after_next {o : Result} {f : State → Bool} (h : after o f = true) :
    ∃ t, o = .next t ∧ f t = true := by
  unfold after at h
  split at h
  · exact ⟨_, rfl, h⟩
  · cases h
  · cases h

/-- The reset state with operands in A and B. -/
def ab (a b : Wide) : State := { State.reset with a := a, b := b }

/-- The reset state with a string in IBUF and its length in ILEN. -/
def buf (s : List Byte) : State :=
  { State.reset with ibuf := Memory.putFrom [] 0 s, ilen := BitVec.ofNat 7 s.length }

/-- The reset state with an error standing under STICKY. -/
def erred : State := { State.reset with err := 0x02, sticky := true }

/-- R and STATUS after a command. -/
def givesR (i : Instr) (s : State) (r : Wide) (status : Word) : Bool :=
  after (exec i s) fun t => t.r == r && t.statusWord == status

/-- The output string and STATUS after a command. -/
def givesOut (i : Instr) (s : State) (out : List Byte) (status : Word) : Bool :=
  after (exec i s) fun t =>
    t.obufBytes t.olen.toNat == out && t.olen.toNat == out.length && t.statusWord == status

/-- The block with two look-alikes: `0` and `1` fold to the digits 33 and 24. -/
def folding : Config := { defaultConfig with aliasMap := [(0x30, 33), (0x31, 24)] }

/-- x of 95_test_vectors.md, section 3. -/
def x : Wide := 0x0123456789ABCDEFFEDCBA9876543210

/-- `SsQg3rJrx3P` (V1.3). -/
def text3 : List Byte := [0x53, 0x73, 0x51, 0x67, 0x33, 0x72, 0x4A, 0x72, 0x78, 0x33, 0x50]

/-- The record behind it (V1.3). -/
def record3 : List Byte := [0x06, 0x2C, 0x02, 0x5B, 0x08, 0x39, 0x66, 0x57]

/-! ## WellFormed: one ill-formed term for each check -/

-- V5.7, V5.3, V5.10: clause 1 of R74, bits 31..15 and bit 7.
theorem smoke_reserved_bit_15 : reservedZero 0x00008001 = false ∧ legalWord 0x00008001 = false := by
  decide

theorem smoke_reserved_bit_7 : reservedZero 0x00000080 = false ∧ legalWord 0x00000080 = false := by
  decide

-- V5.4: clause 2, a reserved OP.
theorem smoke_reserved_op : opListed 0x0000000A = false ∧ legalWord 0x0000000A = false := by decide

-- V5.5: clause 3, VLENC with W = 1.
theorem smoke_width : widthAllowed 0x00000050 = false ∧ legalWord 0x00000050 = false := by decide

-- V5.6: clause 4, ADD with SHAMT = 1.
theorem smoke_shamt : shamtAllowed 0x00000101 = false ∧ legalWord 0x00000101 = false := by decide

-- The decoder names the first clause that fails (R75).
theorem smoke_decoder_refuses :
    decode 0x00008001 = .error .reservedBits ∧ decode 0x00000080 = .error .reservedBits
      ∧ decode 0x0000000A = .error .reservedOpcode ∧ decode 0x00000050 = .error .widthOnUnitCommand
      ∧ decode 0x00000101 = .error .shamtOnNonShift ∧ decode 0xFFFFFFFF = .error .reservedBits
      ∧ decode 0x00003F3F = .error .shamtOnNonShift := ⟨rfl, rfl, rfl, rfl, rfl, rfl, rfl⟩

theorem smoke_table_of_12_lengths :
    ({ defaultConfig with vlTable := tCand.take 12 } : Config).tableComplete = false
      ∧ ({ defaultConfig with vlTable := tCand.take 12 } : Config).wf = false := by decide

theorem smoke_pattern_outside_mask :
    ({ defaultConfig with vlTable := tCand.take 12 ++ [vlRow 0x0F 0xF0 0xF0 0xF0] } : Config).wf1 = false
      ∧ ({ defaultConfig with vlTable := tCand.take 12 ++ [vlRow 0x0F 0xF0 0xF0 0xF0] } : Config).wf = false := by
  decide

theorem smoke_marker_matched :
    ({ defaultConfig with vlTable := tCand.take 12 ++ [vlRow 0x01 0xFF 0xF0 0xF0] } : Config).wf2 = false
      ∧ ({ defaultConfig with vlTable := tCand.take 12 ++ [vlRow 0x01 0xFF 0xF0 0xF0] } : Config).wf = false := by
  decide

theorem smoke_1c_is_not_4 :
    ({ defaultConfig with vlTable := vlRow 0x18 0xFC 0x18 0xFC :: tCand.drop 1 } : Config).wf3 = false
      ∧ ({ defaultConfig with vlTable := vlRow 0x18 0xFC 0x18 0xFC :: tCand.drop 1 } : Config).wf = false := by
  decide

theorem smoke_alphabet_of_58 :
    ({ defaultConfig with alphabet := alphaCand.take 58 } : Config).alphabetOk = false
      ∧ ({ defaultConfig with alphabet := alphaCand.take 58 } : Config).wf = false := by decide

theorem smoke_repeated_character :
    ({ defaultConfig with alphabet := alphaCand.take 58 ++ [0x7A] } : Config).alphabetOk = false
      ∧ ({ defaultConfig with alphabet := alphaCand.take 58 ++ [0x7A] } : Config).wf = false := by decide

theorem smoke_folding_an_alphabet_character :
    ({ defaultConfig with aliasMap := [(0x7A, 1)] } : Config).aliasOk = false
      ∧ ({ defaultConfig with aliasMap := [(0x7A, 1)] } : Config).wf = false := by decide

theorem smoke_folding_to_59 :
    ({ defaultConfig with aliasMap := [(0x30, 59)] } : Config).aliasOk = false
      ∧ ({ defaultConfig with aliasMap := [(0x30, 59)] } : Config).wf = false := by decide

theorem smoke_folding_twice :
    ({ defaultConfig with aliasMap := [(0x30, 1), (0x30, 2)] } : Config).aliasOk = false
      ∧ ({ defaultConfig with aliasMap := [(0x30, 1), (0x30, 2)] } : Config).wf = false := by decide

theorem smoke_unaligned_base :
    ({ defaultConfig with base := 0x10000800 } : Config).baseOk = false
      ∧ ({ defaultConfig with base := 0x10000800 } : Config).wf = false := by decide

theorem smoke_folding_is_well_formed : folding.wf = true := by decide

/-! ## Decoding: each constructor's word, written bit by bit from R71-R73

The fields are bits 31..15, SHAMT, bit 7, W and OP, joined most significant first. -/

/-- A word from its fields. -/
def fields (shamt : BitVec 7) (w : BitVec 1) (op : BitVec 6) : Word := 0#17 ++ shamt ++ 0#1 ++ w ++ op

theorem decode_add : decode (fields 0b0000000 0b0 0b000001) = .ok .add64
    ∧ decode (fields 0b0000000 0b1 0b000001) = .ok .add128 := ⟨rfl, rfl⟩

theorem decode_sub : decode (fields 0b0000000 0b0 0b000010) = .ok .sub64
    ∧ decode (fields 0b0000000 0b1 0b000010) = .ok .sub128 := ⟨rfl, rfl⟩

theorem decode_mul : decode (fields 0b0000000 0b0 0b000011) = .ok .mul64
    ∧ decode (fields 0b0000000 0b1 0b000011) = .ok .mul128 := ⟨rfl, rfl⟩

theorem decode_div : decode (fields 0b0000000 0b0 0b000100) = .ok .div64
    ∧ decode (fields 0b0000000 0b1 0b000100) = .ok .div128 := ⟨rfl, rfl⟩

theorem decode_shl : decode (fields 0b0000001 0b0 0b000101) = .ok (.shl64 1)
    ∧ decode (fields 0b1000000 0b1 0b000101) = .ok (.shl128 64) := ⟨rfl, rfl⟩

theorem decode_shr : decode (fields 0b1111111 0b0 0b000110) = .ok (.shr64 127)
    ∧ decode (fields 0b0011111 0b1 0b000110) = .ok (.shr128 31) := ⟨rfl, rfl⟩

theorem decode_and : decode (fields 0b0000000 0b0 0b000111) = .ok .and64
    ∧ decode (fields 0b0000000 0b1 0b000111) = .ok .and128 := ⟨rfl, rfl⟩

theorem decode_or : decode (fields 0b0000000 0b0 0b001000) = .ok .or64
    ∧ decode (fields 0b0000000 0b1 0b001000) = .ok .or128 := ⟨rfl, rfl⟩

theorem decode_xor : decode (fields 0b0000000 0b0 0b001001) = .ok .xor64
    ∧ decode (fields 0b0000000 0b1 0b001001) = .ok .xor128 := ⟨rfl, rfl⟩

theorem decode_control : decode (fields 0b0000000 0b0 0b000000) = .ok .nop
    ∧ decode (fields 0b0000000 0b0 0b111111) = .ok .clrerr := ⟨rfl, rfl⟩

theorem decode_vlc : decode (fields 0b0000000 0b0 0b010000) = .ok .vlenc
    ∧ decode (fields 0b0000000 0b0 0b010001) = .ok .vldec := ⟨rfl, rfl⟩

theorem decode_b59 : decode (fields 0b0000000 0b0 0b010010) = .ok .b59enc
    ∧ decode (fields 0b0000000 0b0 0b010011) = .ok .b59dec := ⟨rfl, rfl⟩

-- R77's worked encodings, by the encoder.
theorem encode_worked : encode (.shl64 1) = 0x00000105 ∧ encode (.shr128 31) = 0x00001F46
    ∧ encode (.shr64 127) = 0x00007F06 ∧ encode .div64 = 0x00000004 := by decide

/-! ## One step of each command (95_test_vectors.md) -/

-- V2.2
theorem test_add64_ignores_the_upper_half :
    givesR .add64 (ab 0x5FFFFFFFFFFFFFFFF 1) 0 0 = true := by decide

-- V2.4
theorem test_add64_carries_between_words :
    givesR .add64 (ab 0xFFFFFFFF 1) 0x100000000 0 = true := by decide

-- V2.5
theorem test_add128_carries_past_bit_63 :
    givesR .add128 (ab 0xFFFFFFFFFFFFFFFF 1) 0x10000000000000000 0 = true := by decide

-- V2.7
theorem test_sub64_wraps : givesR .sub64 (ab 5 7) 0xFFFFFFFFFFFFFFFE 0 = true := by decide

-- V2.9
theorem test_sub128_wraps :
    givesR .sub128 (ab 0 1) 0xFFFFFFFFFFFFFFFFFFFFFFFFFFFFFFFF 0 = true := by decide

-- V2.15
theorem test_mul64_keeps_the_low_half :
    givesR .mul64 (ab 0x0123456789ABCDEF 0xFEDCBA9876543210) 0x2236d88fe5618cf0 0 = true := by decide

-- V2.18
theorem test_mul128_keeps_the_low_half :
    givesR .mul128 (ab 0x0123456789ABCDEF0123456789ABCDEF 0xFEDCBA9876543210FEDCBA9876543210)
      0x458fab20783af1222236d88fe5618cf0 0 = true := by decide

-- V2.25
theorem test_div64_divides_the_low_half :
    after (exec .div64 (ab 0x10000000000000064 7)) (fun t => t.r == 0xE && t.rem == 2) = true := by
  decide

-- V2.29: B is not 0, but B[15:0] is.
theorem test_div64_by_zero :
    after (exec .div64 { ab 5 0x10000 with r := 9, rem := 8 })
      (fun t => t.r == 9 && t.rem == 8 && t.statusWord == 0x0102) = true := by decide

-- V2.26
theorem test_div128_divides_all_of_A :
    after (exec .div128 (ab 0x10000000000000064 7))
      (fun t => t.r == 0x24924924924924a0 && t.rem == 4) = true := by decide

-- V2.38
theorem test_shl64_loses_high_bits : givesR (.shl64 8) (ab x 0) 0xdcba987654321000 0 = true := by decide

-- V2.40
theorem test_shl64_by_64_is_zero : givesR (.shl64 64) (ab 1 0) 0 0 = true := by decide

-- V2.31
theorem test_shl128_loses_the_top_nibble :
    givesR (.shl128 4) (ab x 0) 0x123456789abcdeffedcba98765432100 0 = true := by decide

-- V2.35
theorem test_shr64_shifts_no_upper_bits_in :
    givesR (.shr64 4) (ab x 0) 0x0fedcba987654321 0 = true := by decide

-- V2.30
theorem test_shr128_by_31 :
    givesR (.shr128 31) (ab x 0) 0x0000000002468acf13579bdffdb97530 0 = true := by decide

-- V2.48
theorem test_and64_clears_the_upper_half :
    givesR .and64 (ab (-1) (-1)) 0xFFFFFFFFFFFFFFFF 0 = true := by decide

-- V2.49
theorem test_and128_keeps_x : givesR .and128 (ab x (-1)) x 0 = true := by decide

-- V2.45
theorem test_or64 :
    givesR .or64 (ab 0xF0F0F0F0F0F0F0F0 0xFF00FF00FF00FF00) 0xfff0fff0fff0fff0 0 = true := by decide

-- V2.51
theorem test_or128 : givesR .or128 (ab x 0xfedcba98765432100123456789abcdef) (-1) 0 = true := by decide

-- V2.46
theorem test_xor64 :
    givesR .xor64 (ab 0xF0F0F0F0F0F0F0F0 0xFF00FF00FF00FF00) 0x0ff00ff00ff00ff0 0 = true := by decide

-- V2.50
theorem test_xor128_of_equals : givesR .xor128 (ab x x) 0 0 = true := by decide

-- V5.1
theorem test_nop_keeps_sticky : after (exec .nop erred) (fun t => t.statusWord == 0x0100) = true := by
  decide

-- V5.2
theorem test_clrerr_clears_both : after (exec .clrerr erred) (fun t => t.statusWord == 0) = true := by
  decide

-- V3.16: the prefix does not fit at length 11.
theorem test_vlenc_bumps_the_length :
    givesOut .vlenc (ab 0xFFFFFFFFFFFFFFFFFFFFF 0)
      ([0x03, 0x0f] ++ List.replicate 10 0xff) 0 = true := by decide +kernel

-- V3.18
theorem test_vlenc_oversized : after (exec .vlenc (ab (2 ^ 120) 0))
    (fun t => t.statusWord == 0x0107 && t.obuf == [] && t.olen == 0) = true := by decide +kernel

-- V3.24: the tail is not read.
theorem test_vldec_leaves_the_tail : after (exec .vldec (buf (record3 ++ [0xaa, 0xbb])))
    (fun t => t.r == 0x022C025B08396657 && t.clen == 8 && t.statusWord == 0) = true := by
  decide +kernel

-- V3.27
theorem test_vldec_truncated : after (exec .vldec (buf (0xff :: List.replicate 14 0)))
    (fun t => t.r == 0 && t.clen == 0 && t.statusWord == 0x0103) = true := by decide +kernel

-- V4.10
theorem test_b59enc_of_the_record : givesOut .b59enc (buf record3) text3 0 = true := by decide +kernel

-- V4.15: the text would be 65 characters.
theorem test_b59enc_oversized :
    givesOut .b59enc (buf (List.replicate 47 0xff)) [] 0x0107 = true := by decide +kernel

-- V4.24
theorem test_b59dec_of_the_text : givesOut .b59dec (buf text3) record3 0 = true := by decide +kernel

-- V4.30: every character is mapped before the checksum is looked at.
theorem test_b59dec_maps_first : givesOut .b59dec (buf [0x51, 0x30]) [] 0x0106 = true := by
  decide +kernel

/-! ## The step and the port -/

-- 10_state.md R29: the first step after reset runs the word that withFetchWord places.
theorem test_step_runs_the_fetched_word :
    after (step (State.reset.withFetchWord 32 0x3F))
      (fun t => t.cmd == 0x3F && t.responses == [.done] && t.hostQueue == []) = true := by decide

-- V5.9: an illegal word is stored, raises, and keeps STICKY.
theorem test_step_raises_on_an_illegal_word : after (issue (cmdWrite 0x7F) erred)
    (fun t => t.cmd == 0x7F && t.statusWord == 0x0101) = true := by decide

-- V6.1
theorem test_ibuf_lanes : after (issue (wr (.ibuf 0) 0x1C000000) State.reset)
    (fun t => t.ibufBytes 4 == [0x1c, 0x00, 0x00, 0x00]) = true := by decide +kernel

-- V6.3
theorem test_ilen_keeps_seven_bits :
    after (issue (wr .ilen 0xFFFFFFFF) State.reset) (fun t => readWord 0x008 t == 0x7F) = true := by
  decide

-- V6.6
theorem test_misaligned_access : after (issue (.access (.write 4 0x102 5)) State.reset)
    (fun t => t == { State.reset with responses := [.busError] }) = true := by decide

/-- The text of V1.3 in OBUF, as B59ENC leaves it in program P3. -/
def encoded : State := { State.reset with obuf := Memory.putFrom [] 0 (padded text3), olen := 11 }

-- P3: what rdbuf's reads return.
theorem test_rdbuf_answers : after (runEvents (HostStatement.rdbuf.events encoded) encoded)
    (fun t => t.responses == [.data 0x78335000, .data 0x33724a72, .data 0x53735167, .data 11]
      && rdbufResult t == text3) = true := by decide +kernel

-- P3: mvbuf fills the last word with the zero that stands in OBUF.
theorem test_mvbuf_copies_whole_words :
    after (runEvents (HostStatement.mvbuf.events encoded) encoded)
      (fun t => t.ibufBytes 12 == text3 ++ [0x00] && t.ilen == 11) = true := by decide +kernel

-- P6: ldbuf fills the last word with zero.
theorem test_ldbuf_pads_the_last_word :
    after (runEvents ((HostStatement.ldbuf text3).events State.reset) State.reset)
      (fun t => t.ibufBytes 12 == text3 ++ [0x00] && t.ilen == 11) = true := by decide +kernel

-- R190: registers are 0 and no buffer byte keeps a value.
theorem test_reset_forgets_the_buffers : after (issue .assertReset (buf text3))
    (fun t => t.ibuf == [] && t.ilen == 0 && t.inReset && t.draws == 128) = true := by decide +kernel

/-! ## Witnesses: the hypotheses of the statements, met together -/

theorem witness_EachLegalWordHasOneOpcodeRow :
    decode 0x00007F46 = .ok (.shr128 127) ∧ legalWord 0x00008000 = false := ⟨rfl, by decide⟩

/-- A host about to write a command word. -/
def about (v : Word) (s : State) : State :=
  { s with hostQueue := [.access (.write 4 0x000 v), rd .status] }

theorem witness_CmdWriteRunsTheDecodedCommand :
    (about 0x00007F46 State.reset).hostQueue = .access (.write 4 0x000 0x00007F46) :: [rd .status]
      ∧ (about 0x00007F46 State.reset).inReset = false
      ∧ decode 0x00007F46 = .ok (.shr128 127) := ⟨rfl, rfl, rfl⟩

theorem witness_FetchWordIsRunNext : decodeTableWord 32 0x7F46 = some (.shr128 127) := by decide

theorem witness_IllegalWordIsStoredAndRaised :
    State.reset.inReset = false ∧ legalWord 0xFFFFFFFF = false := by decide

theorem witness_IdleBlockDoesNothing : State.reset.hostQueue = [] := rfl

-- Both reasons, and both ends of the misaligned offsets.
theorem witness_BadAccessTakesABusError :
    ((Access.read 1 0x000).bytes ≠ 4 ∨ (Access.read 1 0x000).offset.toNat % 4 ≠ 0)
      ∧ ((Access.write 4 0x001 7).bytes ≠ 4 ∨ (Access.write 4 0x001 7).offset.toNat % 4 ≠ 0)
      ∧ ((Access.read 4 0xFFF).bytes ≠ 4 ∨ (Access.read 4 0xFFF).offset.toNat % 4 ≠ 0) := by decide

theorem witness_ReadsHaveNoSideEffect :
    State.reset.inReset = false ∧ (0xFFC : Offset).toNat % 4 = 0 := by decide

/-- The reserved offsets of WordReadsFollowTheAddressMap. -/
def reservedOffset (off : Offset) : Bool :=
  off.toNat % 4 == 0
    && ((0x018 ≤ off.toNat && off.toNat < 0x020) || (0x050 ≤ off.toNat && off.toNat < 0x100)
        || 0x180 ≤ off.toNat)

-- Both ends of each reserved range, and no offset of another clause among them.
theorem witness_WordReadsFollowTheAddressMap :
    ([0x018, 0x01C, 0x050, 0x0FC, 0x180, 0xFFC].all reservedOffset) = true
      ∧ ([0x000, 0x014, 0x020, 0x04C, 0x100, 0x13C, 0x140, 0x17C].any reservedOffset) = false := by
  decide

theorem witness_WordWritesStoreTheirWord : (buf text3).inReset = false := rfl

/-- The offsets of ReadOnlyAndReservedWritesAreIgnored. -/
def ignoredOffset (off : Offset) : Bool :=
  off.toNat % 4 == 0
    && (off.toNat == 0x004 || (0x00C ≤ off.toNat && off.toNat < 0x020)
        || (0x040 ≤ off.toNat && off.toNat < 0x100) || 0x140 ≤ off.toNat)

theorem witness_ReadOnlyAndReservedWritesAreIgnored :
    State.reset.inReset = false
      ∧ ([0x004, 0x00C, 0x01C, 0x040, 0x0FC, 0x140, 0xFFC].all ignoredOffset) = true
      ∧ ([0x000, 0x008, 0x020, 0x03C, 0x100, 0x13C].any ignoredOffset) = false := by decide

/-- The offsets of WrittenWordReadsBack. -/
def storedOffset (off : Offset) : Bool :=
  off.toNat % 4 == 0
    && (off.toNat == 0x008 || (0x020 ≤ off.toNat && off.toNat < 0x040)
        || (0x100 ≤ off.toNat && off.toNat < 0x140))

theorem witness_WrittenWordReadsBack :
    State.reset.inReset = false
      ∧ ([0x008, 0x020, 0x03C, 0x100, 0x13C].all storedOffset) = true := by decide

theorem witness_RepeatedWritesAreIdempotent :
    State.reset.inReset = false ∧ (0x004 : Offset).toNat % 4 = 0 ∧ (0x004 : Offset).toNat ≠ 0
      ∧ (0xFFC : Offset).toNat % 4 = 0 ∧ (0xFFC : Offset).toNat ≠ 0 := by decide

theorem witness_StatusChangesOnlyThroughCommands :
    (∀ v, Access.write 4 0x004 7 ≠ .write 4 0x000 v)
      ∧ ∃ t, issue (.access (.write 4 0x004 7)) erred = .next t := by
  refine ⟨fun v h => ?_, _, rfl⟩
  injection h with _ h _
  exact absurd h (by decide)

-- The first and last address of a window, and the addresses on both sides of it.
theorem witness_WindowIsTheFourKilobytesAtBase :
    offsetOf? { defaultConfig with base := 0x1000 } 0x1000 = some 0x000
      ∧ offsetOf? { defaultConfig with base := 0x1000 } 0x1FFF = some 0xFFF
      ∧ offsetOf? { defaultConfig with base := 0x1000 } 0x0FFF = none
      ∧ offsetOf? { defaultConfig with base := 0x1000 } 0x2000 = none := by decide

-- Both ends of the divisors, and a zero divisor under a B that is not zero.
theorem witness_DivWritesQuotientAndRemainder :
    (ab 5 1).b.setWidth 16 ≠ 0 ∧ (ab 5 0x7FFFF).b.setWidth 16 ≠ 0
      ∧ (ab 5 0x10000).b.setWidth 16 = 0 := by decide

theorem witness_NarrowFormsIgnoreUpperHalves :
    (Instr.div64).op.isWide = true ∧ (Instr.div64).w = false
      ∧ (0x90000000000000064 : Wide).setWidth 64 = (ab 0x64 7).a.setWidth 64
      ∧ (0x10000000000000007 : Wide).setWidth 64 = (ab 0x64 7).b.setWidth 64
      ∧ ∃ t, exec .div64 (ab 0x64 7) = .next t ∧ t.err = 0 :=
  ⟨rfl, rfl, by decide, by decide, _, rfl, rfl⟩

theorem witness_SubUndoesAdd :
    (∃ t, exec .add64 (ab x 7) = .next t ∧ ∃ u, exec .sub64 { t with a := t.r } = .next u)
      ∧ ∃ t, exec .add128 (ab x 7) = .next t ∧ ∃ u, exec .sub128 { t with a := t.r } = .next u :=
  ⟨⟨_, rfl, _, rfl⟩, _, rfl, _, rfl⟩

theorem witness_DivisionIdentity :
    (∃ t, exec .div64 (ab x 7) = .next t ∧ t.err = 0)
      ∧ ∃ t, exec .div128 (ab x 7) = .next t ∧ t.err = 0 := ⟨⟨_, rfl, rfl⟩, _, rfl, rfl⟩

-- Each clause at the end of its range of amounts.
theorem witness_ShiftsAgreeWithMulAndDiv :
    ((63 : BitVec 7).toNat < 64
        ∧ (ab x 0x8000000000000000).b.setWidth 64 = BitVec.twoPow 64 (63 : BitVec 7).toNat)
      ∧ (ab x 0x80000000000000000000000000000000).b = BitVec.twoPow 128 (127 : BitVec 7).toNat
      ∧ ((15 : BitVec 7).toNat ≤ 15
        ∧ (ab x 0x8000).b.setWidth 16 = BitVec.twoPow 16 (15 : BitVec 7).toNat)
      ∧ ((0 : BitVec 7).toNat ≤ 15 ∧ (ab x 1).b.setWidth 16 = BitVec.twoPow 16 (0 : BitVec 7).toNat)
      ∧ 64 ≤ (64 : BitVec 7).toNat ∧ 64 ≤ (127 : BitVec 7).toNat := by decide

theorem witness_NopAndClrerrWriteStatusOnly :
    decode 0 = .ok .nop
      ∧ ∃ t, exec .clrerr erred = .next t ∧ erred.sticky = true ∧ t.sticky = false :=
  ⟨rfl, _, rfl, rfl, rfl⟩

/-- A fitting length is one that the encoder's record function accepts. -/
theorem recordAt?_of_fits {table : List VlRow} {M L : Nat} {raw : Byte} {rest : List Byte} {c : VlCell}
    (h : VlFits table M L raw rest c) : (recordAt? table M L).isSome = true := by
  obtain ⟨h1, h2, h3, c', h4, h5⟩ := h
  simp [recordAt?, h1, h2, h4, h3, h5]

-- V3.3, at the shortest length: no length lies below it.
theorem witness_VlencWritesTheShortestAcceptedRecord_4 :
    4 ≤ 4 ∧ byteLen (ab 0x3FFFFFF 0).a.toNat ≤ 4 ∧ 4 ≤ 16
      ∧ VlFits tCand (ab 0x3FFFFFF 0).a.toNat 4 0x03 [0xff, 0xff, 0xff] ⟨0x1C, 0xFC⟩
      ∧ ∀ L', 4 ≤ L' → byteLen (ab 0x3FFFFFF 0).a.toNat ≤ L' → L' < 4 →
          ∀ raw' rest' c', ¬ VlFits tCand (ab 0x3FFFFFF 0).a.toNat L' raw' rest' c' := by
  refine ⟨by decide, by decide, by decide, ⟨by decide, by decide, by decide, ⟨0x1C, 0xFC⟩, ?_⟩, ?_⟩
  · decide
  · intro L' h1 _ h2
    omega

-- V3.17, at the longest length: the one shorter length that holds the meat is not accepted.
theorem witness_VlencWritesTheShortestAcceptedRecord_16 :
    4 ≤ 16 ∧ byteLen (ab (2 ^ 120 - 1) 0).a.toNat ≤ 16 ∧ 16 ≤ 16
      ∧ VlFits tCand (ab (2 ^ 120 - 1) 0).a.toNat 16 0x00 (List.replicate 15 0xff) ⟨0x0F, 0xFF⟩
      ∧ ∀ L', 4 ≤ L' → byteLen (ab (2 ^ 120 - 1) 0).a.toNat ≤ L' → L' < 16 →
          ∀ raw' rest' c', ¬ VlFits tCand (ab (2 ^ 120 - 1) 0).a.toNat L' raw' rest' c' := by
  refine ⟨by decide, by decide +kernel, by decide,
    ⟨by decide +kernel, by decide +kernel, by decide +kernel, ⟨0x0F, 0xFF⟩, by decide +kernel⟩, ?_⟩
  intro L' _ h1 h2 raw rest c h
  have hlen : byteLen (ab (2 ^ 120 - 1) 0).a.toNat = 15 := by decide +kernel
  obtain rfl : L' = 15 := by omega
  have hnone : (recordAt? tCand (ab (2 ^ 120 - 1) 0).a.toNat 15).isSome = false := by decide +kernel
  rw [recordAt?_of_fits h] at hnone
  cases hnone

-- V3.18, the least meat that no length takes.
theorem witness_VlencRaisesWhenNoLengthIsAccepted :
    ∀ L, 4 ≤ L → byteLen (ab (2 ^ 120) 0).a.toNat ≤ L → L ≤ 16 →
      ∀ raw rest c, ¬ VlFits (ab (2 ^ 120) 0).cfg.vlTable (ab (2 ^ 120) 0).a.toNat L raw rest c := by
  intro L _ h1 h2 raw rest c h
  have hlen : byteLen (ab (2 ^ 120) 0).a.toNat = 16 := by decide +kernel
  obtain rfl : L = 16 := by omega
  have hnone : (recordAt? (ab (2 ^ 120) 0).cfg.vlTable (ab (2 ^ 120) 0).a.toNat 16).isSome = false := by
    decide +kernel
  rw [recordAt?_of_fits h] at hnone
  cases hnone

theorem witness_DefaultTableCarriesMeatsBelowTwoTo120 :
    (ab (2 ^ 120 - 1) 0).cfg.vlTable = tCand
      ∧ (∃ t, exec .vlenc (ab (2 ^ 120 - 1) 0) = .next t)
      ∧ ∃ t, exec .vlenc (ab (2 ^ 120) 0) = .next t :=
  ⟨rfl, (exec_ends _ _).imp fun _ h => h.1, (exec_ends _ _).imp fun _ h => h.1⟩

-- V3.33 and V3.30: the shortest and the longest record, each filling ILEN exactly.
theorem witness_VldecDecodesACompleteRecord :
    defaultConfig.wf = true
      ∧ ((buf [0x1c, 0, 0, 0]).ilen.toNat ≤ 64 ∧ (buf [0x1c, 0, 0, 0]).ilen ≠ 0
        ∧ vlheader tCand ((buf [0x1c, 0, 0, 0]).ibufByte 0) = some (4, ⟨0x1C, 0xFC⟩)
        ∧ 4 ≤ (buf [0x1c, 0, 0, 0]).ilen.toNat)
      ∧ (buf (0x0f :: List.replicate 15 0xff)).ilen.toNat ≤ 64
      ∧ vlheader tCand ((buf (0x0f :: List.replicate 15 0xff)).ibufByte 0) = some (16, ⟨0x0F, 0xFF⟩)
      ∧ 16 ≤ (buf (0x0f :: List.replicate 15 0xff)).ilen.toNat := by decide +kernel

-- V3.25, V3.20, V3.21 and V3.23; the clauses exclude each other.
theorem witness_VldecErrorsInOrder :
    64 < ({ State.reset with ilen := 65 } : State).ilen.toNat ∧ State.reset.ilen = 0
      ∧ ((buf [0x01]).ilen.toNat ≤ 64 ∧ (buf [0x01]).ilen ≠ 0
        ∧ vlheader tCand ((buf [0x01]).ibufByte 0) = none)
      ∧ (buf [0x06, 0x2c, 0x02]).ilen ≠ 0
      ∧ vlheader tCand ((buf [0x06, 0x2c, 0x02]).ibufByte 0) = some (8, ⟨0x04, 0xFC⟩)
      ∧ (buf [0x06, 0x2c, 0x02]).ilen.toNat < 8 := by decide +kernel

-- V3.32 and V3.24: the record of V1.3, and behind it a tail up to the end of IBUF.
theorem witness_VldecUndoesVlenc :
    defaultConfig.wf1 = true
      ∧ ∃ t, exec .vlenc (ab 0x022C025B08396657 0) = .next t ∧ t.err = 0
        ∧ (∀ i < t.olen.toNat,
            (buf (record3 ++ List.replicate 56 0xaa)).ibufByte i = t.obufByte i)
        ∧ t.olen.toNat ≤ (buf (record3 ++ List.replicate 56 0xaa)).ilen.toNat
        ∧ (buf (record3 ++ List.replicate 56 0xaa)).ilen.toNat ≤ 64 := by
  refine ⟨by decide, ?_⟩
  obtain ⟨t, h, ht⟩ := after_next (o := exec .vlenc (ab 0x022C025B08396657 0))
    (f := fun t => decide (t.err = 0 ∧ t.olen.toNat = 8 ∧ ∀ i : Nat, i < 8 →
      (buf (record3 ++ List.replicate 56 0xaa)).ibufByte i = t.obufByte i)) (by decide +kernel)
  obtain ⟨h1, h2, h3⟩ := of_decide_eq_true ht
  exact ⟨t, h, h1, by rwa [h2], by rw [h2]; decide +kernel, by decide +kernel⟩

-- V4.13 and V4.15: the longest text that fits, and the first that does not.
theorem witness_B59encWritesTheText :
    (buf (List.replicate 46 0xff)).ilen.toNat ≤ 64
      ∧ (b59text defaultConfig (List.replicate 46 0xff)).length = 64
      ∧ (buf (List.replicate 47 0xff)).ilen.toNat ≤ 64
      ∧ (b59text defaultConfig (List.replicate 47 0xff)).length = 65 := by decide +kernel

/-- The text that B59encWritesTheText names is the one of b59text, so the lengths above are its. -/
theorem b59text_eq (c : Config) (str : List Byte) (D : List Nat)
    (hD : D = List.replicate (str.takeWhile (· == 0)).length 0 ++ (Nat.digits 59 (valBE str)).reverse) :
    b59text c str = D.map (fun d => c.alphabet.getD d 0)
      ++ [c.alphabet.getD ((59 - (D.sum + D.length + D.length / 59) % 59) % 59) 0] := by
  have h : b59digits str = D := by rw [hD, b59digits, digitsOf_eq]; rfl
  simp only [b59text, h]
  rfl

theorem witness_B59encOf46BytesAlwaysFits :
    (buf (List.replicate 46 0xff)).ilen.toNat ≤ 46 ∧ 47 ≤ 47 ∧ 47 ≤ 64 ∧ 47 ≤ 64 ∧ 64 ≤ 64 := by
  decide +kernel

-- V4.19 and V4.24: the shortest text, with no digit but the checksum, and the text of V1.3.
theorem witness_B59decWritesTheBytes :
    (buf [0x7A]).cfg.wf = true
      ∧ ((buf [0x7A]).ilen.toNat = ([] : List Nat).length + 1 ∧ (buf [0x7A]).ilen.toNat ≤ 64
        ∧ ∀ i < (buf [0x7A]).ilen.toNat,
            digitof? (buf [0x7A]).cfg ((buf [0x7A]).ibufByte i) = ([] ++ [chk []])[i]?)
      ∧ (buf text3).ilen.toNat = [51, 19, 52, 25, 33, 12, 57, 12, 21, 33].length + 1
      ∧ (buf text3).ilen.toNat ≤ 64
      ∧ ∀ i < (buf text3).ilen.toNat, digitof? (buf text3).cfg ((buf text3).ibufByte i)
          = ([51, 19, 52, 25, 33, 12, 57, 12, 21, 33]
              ++ [chk [51, 19, 52, 25, 33, 12, 57, 12, 21, 33]])[i]? := by decide +kernel

-- V4.35, V4.18, V4.30 and V4.22.
theorem witness_B59decErrorsInOrder :
    64 < ({ State.reset with ilen := 65 } : State).ilen.toNat ∧ State.reset.ilen = 0
      ∧ ((buf [0x51, 0x30]).ilen.toNat ≤ 64 ∧ 1 < (buf [0x51, 0x30]).ilen.toNat
        ∧ digitof? defaultConfig ((buf [0x51, 0x30]).ibufByte 1) = none)
      ∧ (buf [0x7A, 0x7A]).ilen.toNat = [0].length + 1 ∧ 0 ≠ chk [0]
      ∧ ∀ i < (buf [0x7A, 0x7A]).ilen.toNat,
          digitof? defaultConfig ((buf [0x7A, 0x7A]).ibufByte i) = ([0] ++ [0])[i]? := by
  decide +kernel

-- V4.10 and V4.24.
theorem witness_B59decUndoesB59enc :
    defaultConfig.wf = true
      ∧ ∃ t, exec .b59enc (buf record3) = .next t ∧ t.err = 0
        ∧ (buf text3).ilen = t.olen
        ∧ ∀ i < t.olen.toNat, (buf text3).ibufByte i = t.obufByte i := by
  refine ⟨by decide, ?_⟩
  obtain ⟨t, h, ht⟩ := after_next (o := exec .b59enc (buf record3))
    (f := fun t => decide (t.err = 0 ∧ t.olen = 11 ∧ ∀ i : Nat, i < 11 →
      (buf text3).ibufByte i = t.obufByte i)) (by decide +kernel)
  obtain ⟨h1, h2, h3⟩ := of_decide_eq_true ht
  exact ⟨t, h, h1, by rw [h2]; decide +kernel, by rw [h2]; exact h3⟩

theorem witness_B59encUndoesB59dec :
    defaultConfig.wf = true
      ∧ (∀ i < (buf text3).ilen.toNat, (buf text3).ibufByte i ∈ defaultConfig.alphabet)
      ∧ ∃ t, exec .b59dec (buf text3) = .next t ∧ t.err = 0
        ∧ (buf record3).ilen = t.olen
        ∧ ∀ i < t.olen.toNat, (buf record3).ibufByte i = t.obufByte i := by
  refine ⟨by decide, by decide +kernel, ?_⟩
  obtain ⟨t, h, ht⟩ := after_next (o := exec .b59dec (buf text3))
    (f := fun t => decide (t.err = 0 ∧ t.olen = 8 ∧ ∀ i : Nat, i < 8 →
      (buf record3).ibufByte i = t.obufByte i)) (by decide +kernel)
  obtain ⟨h1, h2, h3⟩ := of_decide_eq_true ht
  exact ⟨t, h, h1, by rw [h2]; decide +kernel, by rw [h2]; exact h3⟩

/-- The text of V1.3 in a block with look-alikes. -/
def foldingText : State := { buf text3 with cfg := folding }

-- The first character made a byte that is no digit, the fifth (`3`, digit 33) made the `0` that folds
-- to it, and the last (`P`) made another digit (V4.25).
theorem witness_ChangedCharacterIsDetected :
    folding.wf = true
      ∧ (∃ t, exec .b59dec foldingText = .next t ∧ t.err = 0)
      ∧ 0 < foldingText.ilen.toNat ∧ 10 < foldingText.ilen.toNat
      ∧ digitof? folding 0x21 = none
      ∧ 4 < foldingText.ilen.toNat ∧ digitof? folding 0x30 = digitof? folding (foldingText.ibufByte 4)
      ∧ digitof? folding 0x51 = some 52 ∧ digitof? folding (foldingText.ibufByte 10) ≠ some 52 := by
  refine ⟨by decide, ?_, by decide +kernel⟩
  obtain ⟨t, h, ht⟩ := after_next (o := exec .b59dec foldingText)
    (f := fun t => decide (t.err = 0)) (by decide +kernel)
  exact ⟨t, h, of_decide_eq_true ht⟩

-- A success, a raise and CLRERR, each from a state with an error standing.
theorem witness_StatusUpdateAtTheEndOfACommand :
    (∃ t, exec .nop erred = .next t ∧ t.err = 0 ∧ t.sticky = true)
      ∧ (∃ t, exec .div64 erred = .next t ∧ t.err ≠ 0)
      ∧ ∃ t, exec .clrerr erred = .next t ∧ t.err = 0 ∧ t.sticky = false :=
  ⟨⟨_, rfl, rfl, rfl⟩, ⟨_, rfl, by decide⟩, _, rfl, rfl, rfl⟩

theorem witness_CommandsWriteOnlyTheirWriteSets :
    (∃ t, exec .xor64 (ab x 7) = .next t) ∧ ∃ t, exec .div64 (ab x 7) = .next t :=
  ⟨⟨_, rfl⟩, _, rfl⟩

/-- V1.3's text again, with every register that no command reads different. -/
def otherResults : State :=
  { buf text3 with
    r := 1
    rem := 2
    olen := 3
    clen := 4
    cmd := 5
    err := 6
    sticky := true
    obuf := [(0, 7)] }

theorem witness_ResultsDependOnOperandsOnly :
    otherResults.cfg = (buf text3).cfg ∧ otherResults.a = (buf text3).a
      ∧ otherResults.b = (buf text3).b ∧ otherResults.ilen = (buf text3).ilen
      ∧ (∀ k < 64, otherResults.ibufByte k = (buf text3).ibufByte k)
      ∧ ∃ t, exec .div64 (buf text3) = .next t ∧ t.err ≠ 0 :=
  ⟨rfl, rfl, rfl, rfl, fun _ _ => rfl, _, rfl, by decide⟩

theorem witness_BytesFromIlenOnAreNotRead :
    (∀ k < (buf record3).ilen.toNat,
      ({ buf record3 with ibuf := (buf record3).ibuf.put 8 0xaa } : State).ibufByte k
        = (buf record3).ibufByte k)
      ∧ ∃ t, exec .vldec (buf record3) = .next t :=
  ⟨by decide +kernel, (exec_ends _ _).imp fun _ h => h.1⟩

theorem witness_OversizedIlenRaises :
    64 < ({ State.reset with ilen := 65 } : State).ilen.toNat
      ∧ 64 < ({ State.reset with ilen := 127 } : State).ilen.toNat := by decide

theorem witness_StickyIsClearedOnlyByClrerrOrReset :
    ∃ t, step (about 0x3F erred) = .next t ∧ (about 0x3F erred).sticky = true ∧ t.sticky = false :=
  ⟨_, rfl, rfl, rfl⟩

-- Reset asserted when it was not, and when it was.
theorem witness_AssertedResetGivesTheResetValues :
    (buf text3).inReset = false ∧ ({ State.reset with inReset := true } : State).inReset = true :=
  ⟨rfl, rfl⟩

theorem witness_AccessesUnderResetTakeABusError :
    ∃ s, issue .assertReset (buf text3) = .next s ∧ s.inReset = true := ⟨_, rfl, rfl⟩

theorem inv_ab (a b : Wide) (q : List HostEvent) : ({ ab a b with hostQueue := q } : State).Inv where
  cfgWf := show defaultConfig.wf = true by decide
  memory := ⟨rfl, rfl, rfl, rfl⟩
  status := ⟨Nat.zero_le 7, fun h => absurd rfl h⟩
  lengths := ⟨Nat.zero_le 64, .inl rfl, fun h => absurd rfl h⟩
  reset := fun h => absurd h (by simp [ab, State.reset])

-- A state that is not the reset state, about to run a command that raises.
theorem witness_StepKeepsTheInvariant :
    (about 0x04 (ab 5 0)).Inv ∧ ∃ t, step (about 0x04 (ab 5 0)) = .next t ∧ t.err = 0x02 :=
  ⟨inv_ab 5 0 _, _, rfl, rfl⟩

theorem witness_StepNeverChangesTheParameters :
    ∃ t, step { foldingText with hostQueue := [.assertReset] } = .next t := ⟨_, rfl⟩

theorem witness_RegisterPseudoInstructionsLoadX : (ab x 7).inReset = false := rfl

-- The empty and the longest string, and OLEN at both ends.
theorem witness_BufferPseudoInstructionsMoveStrings :
    State.reset.inReset = false ∧ ([] : List Byte).length ≤ 64
      ∧ (List.replicate 64 (0xff : Byte)).length ≤ 64
      ∧ State.reset.olen.toNat ≤ 64 ∧ ({ State.reset with olen := 64 } : State).olen.toNat ≤ 64 := by
  decide

end Sys2Proof.Tests
end

section
/-! PROOF. What a command computes, said once: every command but CLRERR ends with an update of its own
write set or with an error (10_state.md R41, 60_exceptions.md R172), and which of them it is depends
on A, B, ILEN, the bytes of IBUF before ILEN and the parameters alone. -/

namespace Sys2Proof.Machine

/-! ## Updates -/

/-- What a successful command writes beside STATUS: the column of writes of 10_state.md R41. -/
inductive Update where
  | nothing
  | result (v : Wide)
  | quotient (v : Wide) (m : BitVec 16)
  | meat (v : Wide) (len : BitVec 7)
  | output (out : List Byte)

/-- The state with an update's writes. -/
def Update.apply (s : State) : Update → State
  | .nothing => s
  | .result v => { s with r := v }
  | .quotient v m => { s with r := v, rem := m }
  | .meat v len => { s with r := v, clen := len }
  | .output out => produce out s

/-- The commands that write OBUF and OLEN (10_state.md R36). -/
def Produces (i : Instr) : Prop := i = .vlenc ∨ i = .b59enc ∨ i = .b59dec

/-- An update inside the write set of a command (10_state.md R41); in a well-formed block a record's
length and an output's length lie in their ranges (10_state.md R33, R34). -/
def Update.Allowed (c : Config) (i : Instr) : Update → Prop
  | .nothing => i = .nop
  | .result _ => i.op.isWide = true ∧ i.op ≠ .div
  | .quotient _ _ => i.op = .div
  | .meat _ len => i = .vldec ∧ (c.wf = true → lMin ≤ len.toNat ∧ len.toNat ≤ lMax)
  | .output out => Produces i ∧ (c.wf = true → out.length ≤ bufBytes)

/-! ## Two states that a command cannot tell apart -/

/-- Two states of one block that agree on everything a command reads (10_state.md R41). -/
structure SameOperands (s s' : State) : Prop where
  cfg : s'.cfg = s.cfg
  a : s'.a = s.a
  b : s'.b = s.b
  ilen : s'.ilen = s.ilen
  bytes : ∀ k < s.ilen.toNat, k < bufBytes → s'.ibufByte k = s.ibufByte k

theorem SameOperands.refl (s : State) : SameOperands s s := ⟨rfl, rfl, rfl, rfl, fun _ _ _ => rfl⟩

/-- IBUF[0 .. n-1] reads the same, where n is at most ILEN. -/
theorem SameOperands.ibufBytes {s s' : State} (h : SameOperands s s') {n : Nat}
    (hn : n ≤ s.ilen.toNat) (hb : s.ilen.toNat ≤ bufBytes) : s'.ibufBytes n = s.ibufBytes n :=
  List.map_congr_left fun k hk =>
    h.bytes k (by have := List.mem_range.1 hk; omega) (by have := List.mem_range.1 hk; omega)

/-- Two computations that end in the same error, or in the same update of their own state. -/
def Agree (P : Update → Prop) (s s' : State) (x x' : Except Err State) : Prop :=
  (∃ e, x = .error e ∧ x' = .error e) ∨ ∃ u, P u ∧ x = .ok (u.apply s) ∧ x' = .ok (u.apply s')

/-! ## WIDE -/

/-- A WIDE command other than DIV computes its result from A and B. -/
theorem exec_wide {i : Instr} {s s' : State} (h : SameOperands s s') (hw : i.op.isWide = true)
    (hd : i.op ≠ .div) : ∃ res, exec i s = wide res s ∧ exec i s' = wide res s' := by
  have hs : s' = { s' with a := s.a, b := s.b } := by rw [← h.a, ← h.b]
  rw [hs]
  cases i with
  | add64 | add128 | sub64 | sub128 | mul64 | mul128 | and64 | and128 | or64 | or128 | xor64 | xor128 =>
    exact ⟨_, rfl, rfl⟩
  | shl64 | shl128 | shr64 | shr128 => exact ⟨_, rfl, rfl⟩
  | div64 | div128 => exact absurd rfl hd
  | nop | vlenc | vldec | b59enc | b59dec | clrerr => exact absurd hw (by decide)

theorem divide_agree {s s' : State} (h : SameOperands s s') (w : Nat) {P : Update → Prop}
    (hP : ∀ v m, P (.quotient v m)) : Agree P s s' (divide w s) (divide w s') := by
  by_cases hd : divisor s.b = 0
  · exact .inl ⟨.divideByZero, by simp [divide, hd], by simp [divide, h.b, hd]⟩
  · exact .inr ⟨.quotient (zext128 (operand w s.a / divisor s.b))
        (BitVec.ofNat 16 (operand w s.a % divisor s.b)), hP _ _,
      by simp [divide, hd, Update.apply], by simp [divide, h.a, h.b, hd, Update.apply]⟩

/-! ## VLC -/

theorem vlEncode_agree {s s' : State} (h : SameOperands s s') :
    Agree (Update.Allowed s.cfg .vlenc) s s' (vlEncode s) (vlEncode s') := by
  rcases hr : vlEncode? s.cfg.vlTable s.a.toNat with _ | record
  · exact .inl ⟨.oversizedInput, by simp [vlEncode, hr], by simp [vlEncode, h.cfg, h.a, hr]⟩
  · have hlen := vlEncode?_length hr
    exact .inr ⟨.output record, ⟨.inl rfl, fun _ => by simp only [bufBytes]; omega⟩,
      by simp [vlEncode, hr, Update.apply], by simp [vlEncode, h.cfg, h.a, hr, Update.apply]⟩

theorem vlDecode_oversized {s : State} (h : bufBytes < s.ilen.toNat) :
    vlDecode s = .error .oversizedInput := if_pos h

/-- In a well-formed block a header match gives a record length, which CLEN can hold. -/
theorem vlheader_length {c : Config} (hwf : c.wf = true) {b : Byte} {L : Nat} {cell : VlCell}
    (h : vlheader c.vlTable b = some (L, cell)) :
    lMin ≤ (BitVec.ofNat 7 L).toNat ∧ (BitVec.ofNat 7 L).toNat ≤ lMax := by
  obtain ⟨hlo, hhi, -, -⟩ := vlheader_some h
  obtain ⟨hrows, -⟩ := wf_parts hwf
  simp only [BitVec.toNat_ofNat, lMin, lMax] at *
  omega

theorem vlDecode_agree {s s' : State} (h : SameOperands s s') :
    Agree (Update.Allowed s.cfg .vldec) s s' (vlDecode s) (vlDecode s') := by
  by_cases hbig : bufBytes < s.ilen.toNat
  · exact .inl ⟨_, vlDecode_oversized hbig, vlDecode_oversized (h.ilen ▸ hbig)⟩
  by_cases hzero : s.ilen.toNat = 0
  · exact .inl ⟨.truncatedRecord, by simp [vlDecode, hzero], by simp [vlDecode, h.ilen, hzero]⟩
  have hfirst : s'.ibufByte 0 = s.ibufByte 0 := h.bytes 0 (by omega) (by decide)
  rcases hv : vlheader s.cfg.vlTable (s.ibufByte 0) with _ | ⟨L, c⟩
  · exact .inl ⟨.invalidPrefix, by simp [vlDecode, hbig, hzero, hv],
      by simp [vlDecode, h.ilen, h.cfg, hfirst, hbig, hzero, hv]⟩
  by_cases hshort : s.ilen.toNat < L
  · exact .inl ⟨.truncatedRecord, by simp [vlDecode, hbig, hzero, hv, hshort],
      by simp [vlDecode, h.ilen, h.cfg, hfirst, hbig, hzero, hv, hshort]⟩
  have hbytes : s'.ibufBytes L = s.ibufBytes L := h.ibufBytes (by omega) (by omega)
  exact .inr ⟨.meat (zext128 (strip (s.ibufBytes L) c.mask)) (BitVec.ofNat 7 L),
    ⟨rfl, fun hwf => vlheader_length hwf hv⟩,
    by simp [vlDecode, hbig, hzero, hv, hshort, Update.apply],
    by simp [vlDecode, h.ilen, h.cfg, hfirst, hbytes, hbig, hzero, hv, hshort, Update.apply]⟩

/-! ## B59 -/

theorem b59Encode_oversized {s : State} (h : bufBytes < s.ilen.toNat) :
    b59Encode s = .error .oversizedInput := if_pos h

theorem b59Decode_oversized {s : State} (h : bufBytes < s.ilen.toNat) :
    b59Decode s = .error .oversizedInput := if_pos h

theorem b59Encode_agree {s s' : State} (h : SameOperands s s') :
    Agree (Update.Allowed s.cfg .b59enc) s s' (b59Encode s) (b59Encode s') := by
  by_cases hbig : bufBytes < s.ilen.toNat
  · exact .inl ⟨_, b59Encode_oversized hbig, b59Encode_oversized (h.ilen ▸ hbig)⟩
  have hbytes := h.ibufBytes le_rfl (Nat.le_of_not_lt hbig)
  by_cases hlong : bufBytes < (b59text s.cfg (s.ibufBytes s.ilen.toNat)).length
  · exact .inl ⟨.oversizedInput, by simp [b59Encode, hlong],
      by simp [b59Encode, h.ilen, h.cfg, hbytes, hlong]⟩
  · exact .inr ⟨.output (b59text s.cfg (s.ibufBytes s.ilen.toNat)),
      ⟨.inr (.inl rfl), fun _ => Nat.le_of_not_lt hlong⟩,
      by simp [b59Encode, hbig, hlong, Update.apply],
      by simp [b59Encode, h.ilen, h.cfg, hbytes, hbig, hlong, Update.apply]⟩

/-- The digits of a text are as many as its characters. -/
theorem textDigits?_length {c : Config} {xs : List Byte} {ds : List Nat}
    (h : textDigits? c xs = some ds) : ds.length = xs.length := by
  simpa using (congrArg List.length (textDigits?_some.1 h)).symm

/-- In a well-formed block the digits of a text are below 59. -/
theorem textDigits?_lt {c : Config} (hwf : c.wf = true) {xs : List Byte} {ds : List Nat}
    (h : textDigits? c xs = some ds) : ∀ d ∈ ds, d < radix := by
  intro d hd
  have hmem : some d ∈ xs.map (digitof? c) := by
    rw [textDigits?_some.1 h]; exact List.mem_map_of_mem hd
  obtain ⟨x, -, hx⟩ := List.mem_map.1 hmem
  exact digitof?_lt hwf hx

/-- The bytes of a decoded text are no more than its characters (42_base59.md R146). -/
theorem b59bytes_textDigits?_length {c : Config} (hwf : c.wf = true) {xs : List Byte} {ds : List Nat}
    (h : textDigits? c xs = some ds) : (b59bytes ds.dropLast).length ≤ xs.length := by
  have hle := b59bytes_length_le ds.dropLast fun d hd =>
    textDigits?_lt hwf h d (List.dropLast_subset ds hd)
  have hlen := textDigits?_length h
  rw [List.length_dropLast] at hle
  omega

theorem b59Decode_agree {s s' : State} (h : SameOperands s s') :
    Agree (Update.Allowed s.cfg .b59dec) s s' (b59Decode s) (b59Decode s') := by
  by_cases hbig : bufBytes < s.ilen.toNat
  · exact .inl ⟨_, b59Decode_oversized hbig, b59Decode_oversized (h.ilen ▸ hbig)⟩
  by_cases hzero : s.ilen.toNat = 0
  · exact .inl ⟨.invalidChecksum, by simp [b59Decode, hzero], by simp [b59Decode, h.ilen, hzero]⟩
  have hbytes := h.ibufBytes le_rfl (Nat.le_of_not_lt hbig)
  rcases ht : textDigits? s.cfg (s.ibufBytes s.ilen.toNat) with _ | ds
  · exact .inl ⟨.invalidCharacter, by simp [b59Decode, hbig, hzero, ht],
      by simp [b59Decode, h.ilen, h.cfg, hbytes, hbig, hzero, ht]⟩
  by_cases hchk : ds.getLastD 0 = chk ds.dropLast
  · have hlen : s.cfg.wf = true → (b59bytes ds.dropLast).length ≤ bufBytes := fun hwf =>
      (b59bytes_textDigits?_length hwf ht).trans
        (by simpa [State.ibufBytes] using Nat.le_of_not_lt hbig)
    exact .inr ⟨.output (b59bytes ds.dropLast), ⟨.inr (.inr rfl), hlen⟩,
      by simp only [b59Decode, gt_iff_lt, hbig, hzero, ht, hchk, ne_eq, not_true, if_false,
        Update.apply],
      by simp only [b59Decode, gt_iff_lt, h.ilen, h.cfg, hbytes, hbig, hzero, ht, hchk, ne_eq,
        not_true, if_false, Update.apply]⟩
  · exact .inl ⟨.invalidChecksum, by
        simp only [b59Decode, gt_iff_lt, hbig, hzero, ht, ne_eq, hchk, not_false_eq_true, if_false,
          if_true],
      by
        simp only [b59Decode, gt_iff_lt, h.ilen, h.cfg, hbytes, hbig, hzero, ht, ne_eq, hchk,
          not_false_eq_true, if_false, if_true]⟩

/-! ## All commands -/

/-- Every command but CLRERR ends two states that agree on its operands in the same way: with the same
error, or with the same update of its write set. -/
theorem exec_agree {i : Instr} (hi : i ≠ .clrerr) {s s' : State} (h : SameOperands s s') :
    ∃ x x', Agree (Update.Allowed s.cfg i) s s' x x'
      ∧ exec i s = finish s x ∧ exec i s' = finish s' x' := by
  by_cases hw : i.op.isWide = true ∧ i.op ≠ .div
  · obtain ⟨res, hs, hs'⟩ := exec_wide h hw.1 hw.2
    exact ⟨_, _, .inr ⟨.result (zext128 res), hw, rfl, rfl⟩, hs, hs'⟩
  cases i with
  | div64 => exact ⟨_, _, divide_agree h 64 fun _ _ => rfl, rfl, rfl⟩
  | div128 => exact ⟨_, _, divide_agree h 128 fun _ _ => rfl, rfl, rfl⟩
  | nop => exact ⟨_, _, .inr ⟨.nothing, rfl, rfl, rfl⟩, rfl, rfl⟩
  | vlenc => exact ⟨_, _, vlEncode_agree h, rfl, rfl⟩
  | vldec => exact ⟨_, _, vlDecode_agree h, rfl, rfl⟩
  | b59enc => exact ⟨_, _, b59Encode_agree h, rfl, rfl⟩
  | b59dec => exact ⟨_, _, b59Decode_agree h, rfl, rfl⟩
  | clrerr => exact absurd rfl hi
  | add64 | add128 | sub64 | sub128 | mul64 | mul128 | and64 | and128 | or64 | or128 | xor64 | xor128 =>
    exact absurd ⟨rfl, nofun⟩ hw
  | shl64 | shl128 | shr64 | shr128 => exact absurd ⟨rfl, nofun⟩ hw

/-- The ends of every command but CLRERR, side by side in two states that agree on its operands. -/
theorem exec_pair {i : Instr} (hi : i ≠ .clrerr) {s s' : State} (h : SameOperands s s') :
    (∃ e, exec i s = .next (raiseErr e s) ∧ exec i s' = .next (raiseErr e s'))
      ∨ ∃ u, Update.Allowed s.cfg i u
          ∧ exec i s = .next (succeed (u.apply s)) ∧ exec i s' = .next (succeed (u.apply s')) := by
  obtain ⟨x, x', ⟨e, rfl, rfl⟩ | ⟨u, hu, rfl, rfl⟩, hs, hs'⟩ := exec_agree hi h
  · exact .inl ⟨e, hs, hs'⟩
  · exact .inr ⟨u, hu, hs, hs'⟩

/-- The three ways a command ends, with the write set of a success. -/
theorem exec_cases {i : Instr} {s t : State} (h : exec i s = .next t) :
    (∃ e, t = raiseErr e s) ∨ (i = .clrerr ∧ t = clearStatus s)
      ∨ ∃ u, Update.Allowed s.cfg i u ∧ t = succeed (u.apply s) := by
  by_cases hi : i = .clrerr
  · subst hi; cases h; exact .inr (.inl ⟨rfl, rfl⟩)
  obtain ⟨e, hs, -⟩ | ⟨u, hu, hs, -⟩ := exec_pair hi (.refl s)
  · rw [hs] at h; cases h; exact .inl ⟨e, rfl⟩
  · rw [hs] at h; cases h; exact .inr (.inr ⟨u, hu, rfl⟩)

end Sys2Proof.Machine
end

section
/-! PROOF. What a step can do, said once: it idles, or it serves one event in one of six ways
(10_state.md R20, 20_memory.md R54-R57, 70_reset_and_hazards.md R190). -/

namespace Sys2Proof.Machine

/-! ## The decoder -/

theorem code_of_ofCode? : ∀ c : BitVec 6, ∀ op ∈ Op.ofCode? c, op.code = c := by decide

/-- What a decoded word's fields say (30_encoding.md R75). -/
theorem decode_ok {v : Word} {i : Instr} (h : decode v = .ok i) :
    v.extractLsb' 15 17 = 0 ∧ v.getLsbD 7 = false
      ∧ ∃ op : Op, opField v = op.code ∧ i = assemble op (wField v) (shamtField v)
        ∧ (op.isWide = false → wField v = false) ∧ (op.isShift = false → shamtField v = 0) := by
  simp only [decode] at h
  split at h
  · cases h
  next hres =>
  obtain ⟨hhigh, h7⟩ := not_or.1 hres
  split at h
  · cases h
  next op hop =>
  split at h
  · cases h
  next hw =>
  split at h
  · cases h
  next hs =>
  cases h
  refine ⟨not_not.1 hhigh, by simpa using h7, op, (code_of_ofCode? _ op hop).symm, rfl, ?_, ?_⟩
  · intro hop; simpa [hop] using hw
  · intro hop; simpa [hop] using hs

theorem assemble_clrerr {op : Op} {w : Bool} {n : BitVec 7} (h : assemble op w n = .clrerr) :
    op = .clrerr := by
  cases op with
  | clrerr => rfl
  | nop | vlenc | vldec | b59enc | b59dec => cases h
  | add | sub | mul | div | shl | shr | and | or | xor => cases w <;> cases h

/-- The only word of CLRERR is 0x3F (30_encoding.md R77). -/
theorem decode_clrerr {v : Word} (h : decode v = .ok .clrerr) : v = 0x3F := by
  obtain ⟨hhigh, h7, op, hop, hi, hw, hs⟩ := decode_ok h
  cases assemble_clrerr hi.symm
  have h6 : v.getLsbD 6 = false := hw rfl
  have hhigh : (v.extractLsb' 15 17).toNat = 0 := congrArg BitVec.toNat hhigh
  have hop : (v.extractLsb' 0 6).toNat = 0x3F := congrArg BitVec.toNat hop
  have hs : (v.extractLsb' 8 7).toNat = 0 := congrArg BitVec.toNat (hs rfl)
  simp only [BitVec.extractLsb'_toNat, Nat.shiftRight_eq_div_pow, BitVec.getLsbD,
    Nat.testBit_eq_decide_div_mod_eq, decide_eq_false_iff_not] at hhigh h7 hop h6 hs
  exact BitVec.eq_of_toNat_eq (show v.toNat = 63 by omega)

/-! ## Events -/

/-- What serving an event can do: an answer of the port and nothing more, a stored word, a performed
command, or an event of the reset input. -/
inductive Serves (s : State) : HostEvent → State → Prop
  | answered (x : Access) (y : Response) : Serves s (.access x) (respond y s)
  | stored (x : Access) (reg : Reg) (v : Word) (hreg : reg ≠ .cmd) (hr : s.inReset = false) :
      Serves s (.access x) (respond .done (writeReg reg v s))
  | performed (v : Word) (u : State) (hr : s.inReset = false)
      (hu : performCommand v { s with cmd := v } = .next u) :
      Serves s (.access (.write 4 0x000 v)) (respond .done u)
  | asserted : Serves s .assertReset (assertReset s)
  | released : Serves s .releaseReset (releaseReset s)
  | aborted (v : Word) : Serves s (.abortedCommand v) (respond .busError (assertReset s))

theorem serveAccess_serves {x : Access} {s t : State} (h : serveAccess x s = .next t) :
    Serves s (.access x) t := by
  by_cases hbad : s.inReset = true ∨ x.legal = false
  · rw [serveAccess_refused hbad] at h
    cases h; exact .answered x _
  obtain ⟨hr, hl⟩ := not_or.1 hbad
  replace hr : s.inReset = false := by simpa using hr
  replace hl : x.legal = true := by simpa using hl
  cases x with
  | read n off =>
    rw [serveAccess_read hr hl] at h
    cases h; exact .answered _ _
  | write n off v =>
    rw [serveAccess_write hr hl] at h
    obtain ⟨hoff, hw⟩ | ⟨reg, hreg, -, hw⟩ | ⟨-, hw⟩ := writeWord_cases off v s
    · obtain ⟨u, hu, -⟩ := performCommand_ends v { s with cmd := v }
      obtain rfl : off = 0x000 := regAt?_some hoff
      obtain ⟨rfl, -⟩ : n = 4 ∧ _ := by simpa [Access.legal, Access.bytes] using hl
      rw [hw, hu] at h
      cases h; exact .performed v u hr hu
    · rw [hw] at h
      cases h; exact .stored _ reg v hreg hr
    · rw [hw] at h
      cases h; exact .answered _ _

theorem serveEvent_serves {e : HostEvent} {s t : State} (h : serveEvent e s = .next t) :
    Serves s e t := by
  cases e with
  | access x => exact serveAccess_serves h
  | assertReset => cases h; exact .asserted
  | releaseReset => cases h; exact .released
  | abortedCommand v => cases h; exact .aborted v

/-- A step idles, or it serves the oldest event. -/
theorem step_cases {s t : State} (h : step s = .next t) :
    t = s ∨ ∃ e rest, s.hostQueue = e :: rest ∧ Serves { s with hostQueue := rest } e t := by
  rw [step_eq] at h
  rcases hq : s.hostQueue with _ | ⟨e, rest⟩
  · rw [stepHost_nil hq] at h
    cases h; exact .inl rfl
  · rw [stepHost_cons hq] at h
    exact .inr ⟨e, rest, rfl, serveEvent_serves h⟩

/-- A performed word raises IllegalCommand or is its decoded command. -/
theorem performCommand_cases {v : Word} {s t : State} (h : performCommand v s = .next t) :
    t = raiseErr .illegalCommand s ∨ ∃ i, decode v = .ok i ∧ exec i s = .next t := by
  simp only [performCommand] at h
  split at h
  next i hi => exact .inr ⟨i, hi, h⟩
  · cases h; exact .inl rfl

/-- An event issued now is served now. -/
theorem issue_eq (e : HostEvent) (s : State) : issue e s = serveEvent e s := rfl

/-! ## What the shared operations keep -/

@[simp] theorem writeReg_cfg (reg : Reg) (v : Word) (s : State) : (writeReg reg v s).cfg = s.cfg := by
  cases reg <;> rfl

@[simp] theorem writeReg_sticky (reg : Reg) (v : Word) (s : State) :
    (writeReg reg v s).sticky = s.sticky := by
  cases reg <;> rfl

@[simp] theorem assertReset_cfg (s : State) : (assertReset s).cfg = s.cfg := by
  simp only [assertReset]; split <;> rfl

@[simp] theorem releaseReset_cfg (s : State) : (releaseReset s).cfg = s.cfg := by
  simp only [releaseReset]; split <;> rfl

@[simp] theorem Update.apply_cfg (u : Update) (s : State) : (u.apply s).cfg = s.cfg := by
  cases u <;> rfl

@[simp] theorem Update.apply_sticky (u : Update) (s : State) : (u.apply s).sticky = s.sticky := by
  cases u <;> rfl

@[simp] theorem Update.apply_inReset (u : Update) (s : State) : (u.apply s).inReset = s.inReset := by
  cases u <;> rfl

theorem Ends.cfg {s t : State} (h : Ends s t) : t.cfg = s.cfg := by
  obtain ⟨e, rfl⟩ | rfl | h := h
  · rfl
  · rfl
  · rw [h]

/-- Serving an event leaves the parameters of the block as they are (10_state.md R38). -/
theorem Serves.cfg {s t : State} {e : HostEvent} (h : Serves s e t) : t.cfg = s.cfg := by
  cases h with
  | answered | stored | asserted | released | aborted => simp
  | performed v u _ hu =>
    obtain ⟨u', hu', hends⟩ := performCommand_ends v { s with cmd := v }
    rw [hu] at hu'; cases hu'
    exact hends.cfg

/-- The only command that clears STICKY is CLRERR (43_control.md R161). -/
theorem eq_clrerr_of_exec_clears_sticky {i : Instr} {s t : State} (h : exec i s = .next t)
    (hs : s.sticky = true) (ht : t.sticky = false) : i = .clrerr := by
  obtain ⟨e, rfl⟩ | ⟨hi, -⟩ | ⟨u, -, rfl⟩ := exec_cases h
  · cases ht
  · exact hi
  · simp [hs] at ht

end Sys2Proof.Machine
end

section
/-! PROOF. The invariant of the block: each shared operation keeps it. -/

namespace Sys2Proof.Machine

/-- While reset is released it asks nothing of the registers. -/
theorem resetInv_of_released {s : State} (hr : s.inReset = false) : s.resetInv := fun ht =>
  absurd (hr.symm.trans ht) nofun

/-- ERR = 0 asks nothing of STICKY. -/
theorem statusInv_of_ok {s : State} (h : s.err = 0) : s.statusInv :=
  ⟨by rw [h]; exact Nat.zero_le 7, fun herr => absurd h herr⟩

/-- OLEN = 0 and CLEN = 0 ask nothing of OBUF. -/
theorem lengthInv_of_zero {s : State} (ho : s.olen = 0) (hc : s.clen = 0) : s.lengthInv :=
  ⟨by rw [ho]; exact Nat.zero_le _, .inl hc, fun holen => absurd ho holen⟩

theorem inv_respond {s : State} (h : s.Inv) (y : Response) : (respond y s).Inv where
  cfgWf := h.cfgWf
  memory := h.memory
  status := h.status
  lengths := h.lengths
  reset := h.reset

theorem inv_withQueue {s : State} (h : s.Inv) (q : List HostEvent) :
    ({ s with hostQueue := q } : State).Inv where
  cfgWf := h.cfgWf
  memory := h.memory
  status := h.status
  lengths := h.lengths
  reset := h.reset

theorem inv_raiseErr {s : State} (h : s.Inv) (hr : s.inReset = false) (e : Err) :
    (raiseErr e s).Inv where
  cfgWf := h.cfgWf
  memory := h.memory
  status := ⟨(raise_code_le e).1, fun _ => rfl⟩
  lengths := h.lengths
  reset := resetInv_of_released hr

theorem inv_clearStatus {s : State} (h : s.Inv) (hr : s.inReset = false) :
    (clearStatus s).Inv where
  cfgWf := h.cfgWf
  memory := h.memory
  status := statusInv_of_ok rfl
  lengths := h.lengths
  reset := resetInv_of_released hr

theorem inv_succeed {s : State} (h : s.Inv) (hr : s.inReset = false) : (succeed s).Inv where
  cfgWf := h.cfgWf
  memory := h.memory
  status := statusInv_of_ok rfl
  lengths := h.lengths
  reset := resetInv_of_released hr

/-- A producing command keeps OBUF in its buffer and leaves zeros behind its output. -/
theorem inv_produce {s : State} (h : s.Inv) (hr : s.inReset = false) {out : List Byte}
    (hout : out.length ≤ bufBytes) : (produce out s).Inv where
  cfgWf := h.cfgWf
  memory := by
    obtain ⟨hi, hib, ho, hob⟩ := h.memory
    exact ⟨hi, hib, Memory.wf_putFrom _ _ _ ho,
      Memory.inBuffer_putFrom _ _ _ (by rw [padded_length out hout, Nat.zero_add]) hob⟩
  status := h.status
  lengths := by
    obtain ⟨-, hclen, -⟩ := h.lengths
    have holen : (produce out s).olen.toNat = out.length :=
      Nat.mod_eq_of_lt (lt_of_le_of_lt hout (by decide))
    refine ⟨by rw [holen]; exact hout, hclen, fun _ i hi hi64 => ?_⟩
    rw [produce_obufByte out s hout i hi64, List.getD_eq_default _ _ (holen ▸ hi)]
  reset := resetInv_of_released hr

/-- An allowed update keeps the invariant. -/
theorem inv_apply {s : State} (h : s.Inv) (hr : s.inReset = false) {i : Instr} {u : Update}
    (hu : u.Allowed s.cfg i) : (u.apply s).Inv := by
  cases u with
  | nothing => exact h
  | result | quotient =>
    exact ⟨h.cfgWf, h.memory, h.status, h.lengths, resetInv_of_released hr⟩
  | meat v len =>
    obtain ⟨holen, -, hzeros⟩ := h.lengths
    exact ⟨h.cfgWf, h.memory, h.status, ⟨holen, .inr (hu.2 h.cfgWf), hzeros⟩,
      resetInv_of_released hr⟩
  | output out => exact inv_produce h hr (hu.2 h.cfgWf)

theorem inv_exec {s t : State} (h : s.Inv) (hr : s.inReset = false) {i : Instr}
    (ht : exec i s = .next t) : t.Inv := by
  obtain ⟨e, rfl⟩ | ⟨-, rfl⟩ | ⟨u, hu, rfl⟩ := exec_cases ht
  · exact inv_raiseErr h hr e
  · exact inv_clearStatus h hr
  · exact inv_succeed (inv_apply h hr hu) (by rwa [Update.apply_inReset])

/-- A word write keeps the invariant: the 16 words of IBUF lie in its 64 bytes. -/
theorem inv_writeReg {s : State} (h : s.Inv) (hr : s.inReset = false) (reg : Reg) (v : Word) :
    (writeReg reg v s).Inv := by
  cases reg with
  | cmd | ilen | a | b => exact ⟨h.cfgWf, h.memory, h.status, h.lengths, resetInv_of_released hr⟩
  | ibuf k =>
    obtain ⟨hi, hib, ho, hob⟩ := h.memory
    have hk : 4 * k.val + 4 ≤ bufBytes := by have := k.isLt; simp only [bufBytes]; omega
    exact ⟨h.cfgWf, ⟨Memory.wf_putFrom _ _ _ hi, Memory.inBuffer_putFrom _ _ _ hk hib, ho, hob⟩,
      h.status, h.lengths, resetInv_of_released hr⟩
  | status | olen | clen | rem | r | obuf => exact h

theorem inv_performCommand {s t : State} (h : s.Inv) (hr : s.inReset = false) {v : Word}
    (ht : performCommand v s = .next t) : t.Inv := by
  obtain rfl | ⟨i, -, hi⟩ := performCommand_cases ht
  · exact inv_raiseErr h hr _
  · exact inv_exec h hr hi

/-- Cleared registers meet the invariant, whatever the level of the reset input. -/
theorem inv_clearRegisters {s : State} (h : s.Inv) (level : Bool) :
    ({ clearRegisters s with inReset := level } : State).Inv where
  cfgWf := h.cfgWf
  memory := h.memory
  status := statusInv_of_ok rfl
  lengths := lengthInv_of_zero rfl rfl
  reset := fun _ => ⟨rfl, rfl, rfl, rfl, rfl, rfl, rfl, rfl, rfl, rfl⟩

theorem inv_assertReset {s : State} (h : s.Inv) : (assertReset s).Inv := by
  simp only [assertReset]
  split
  · exact inv_clearRegisters h s.inReset
  · have hclear := inv_clearRegisters h true
    exact ⟨h.cfgWf, ⟨rfl, rfl, rfl, rfl⟩, hclear.status, lengthInv_of_zero rfl rfl, hclear.reset⟩

theorem inv_releaseReset {s : State} (h : s.Inv) : (releaseReset s).Inv := by
  simp only [releaseReset]
  split
  · exact inv_clearRegisters h false
  · exact h

/-- Serving an event keeps the invariant. -/
theorem inv_serves {s t : State} (h : s.Inv) {e : HostEvent} (ht : Serves s e t) : t.Inv := by
  cases ht with
  | answered x y => exact inv_respond h y
  | stored x reg v _ hr => exact inv_respond (inv_writeReg h hr reg v) _
  | performed v u hr hu =>
    exact inv_respond (inv_performCommand (inv_writeReg h hr .cmd v) hr hu) _
  | asserted => exact inv_assertReset h
  | released => exact inv_releaseReset h
  | aborted v => exact inv_respond (inv_assertReset h) _

end Sys2Proof.Machine
end

section
/-! PROOF. The statements of 10_state.md: each settled from the laws above. -/

namespace Sys2Proof.Machine

/-! ## What a command writes and what its outcome depends on -/

/-- An allowed update writes R only for a WIDE command or VLDEC, REM only for DIV, CLEN only for VLDEC,
and OLEN and OBUF only for a producing command. -/
theorem Update.Allowed.keeps {c : Config} {i : Instr} {u : Update} (h : u.Allowed c i) (s : State) :
    (i.op.isWide = false → i ≠ .vldec → (u.apply s).r = s.r)
      ∧ (i.op ≠ .div → (u.apply s).rem = s.rem)
      ∧ (i ≠ .vldec → (u.apply s).clen = s.clen)
      ∧ (i ≠ .vlenc → i ≠ .b59enc → i ≠ .b59dec →
          (u.apply s).olen = s.olen ∧ (u.apply s).obuf = s.obuf) := by
  cases u with
  | nothing => exact ⟨fun _ _ => rfl, fun _ => rfl, fun _ => rfl, fun _ _ _ => ⟨rfl, rfl⟩⟩
  | result v =>
    obtain ⟨hw, -⟩ := h
    exact ⟨fun hn _ => absurd (hw.symm.trans hn) nofun, fun _ => rfl, fun _ => rfl,
      fun _ _ _ => ⟨rfl, rfl⟩⟩
  | quotient v m =>
    have hd : i.op = .div := h
    exact ⟨fun hn _ => absurd (hd ▸ hn) nofun, fun hn => absurd hd hn, fun _ => rfl,
      fun _ _ _ => ⟨rfl, rfl⟩⟩
  | meat v len =>
    obtain ⟨hi, -⟩ := h
    exact ⟨fun _ hn => absurd hi hn, fun _ => rfl, fun hn => absurd hi hn,
      fun _ _ _ => ⟨rfl, rfl⟩⟩
  | output out =>
    obtain ⟨hi, -⟩ := h
    exact ⟨fun _ _ => rfl, fun _ => rfl, fun _ => rfl, fun h1 h2 h3 =>
      absurd hi (not_or.2 ⟨h1, not_or.2 ⟨h2, h3⟩⟩)⟩

/-- The whole of OBUF is written by an output and its padding (10_state.md R36). -/
theorem obufByte_produce_eq (out : List Byte) (s s' : State) {k : Nat} (hk : k < bufBytes) :
    (produce out s').obufByte k = (produce out s).obufByte k := by
  have hlen : k < (padded out).length := by
    simp only [padded, List.length_append, List.length_replicate]
    omega
  have hbyte (m : Memory) : (m.putFrom 0 (padded out)).byte? k = (padded out)[k]? := by
    simpa using m.byte?_putFrom_inside 0 (padded out) k hlen
  simp only [State.obufByte, produce_obuf, hbyte, List.getElem?_eq_getElem hlen, Option.getD_some]

/-- What an allowed update writes does not depend on the state it is applied to: R for a WIDE command
and VLDEC, REM for DIV, CLEN for VLDEC, and OLEN and OBUF for a producing command. -/
theorem Update.Allowed.determines {c : Config} {i : Instr} {u : Update} (h : u.Allowed c i)
    (s s' : State) :
    (i.op.isWide = true ∨ i = .vldec → (u.apply s').r = (u.apply s).r)
      ∧ (i.op = .div → (u.apply s').rem = (u.apply s).rem)
      ∧ (i = .vldec → (u.apply s').clen = (u.apply s).clen)
      ∧ (i = .vlenc ∨ i = .b59enc ∨ i = .b59dec →
          (u.apply s').olen = (u.apply s).olen
            ∧ ∀ k < 64, (u.apply s').obufByte k = (u.apply s).obufByte k) := by
  cases u with
  | nothing =>
    obtain rfl : i = .nop := h
    exact ⟨fun hi => absurd hi (by decide), nofun, nofun, fun hi => absurd hi (by decide)⟩
  | result v =>
    obtain ⟨hw, hd⟩ := h
    refine ⟨fun _ => rfl, fun hi => absurd hi hd, ?_, ?_⟩
    · rintro rfl; exact absurd hw (by decide)
    · rintro (rfl | rfl | rfl) <;> exact absurd hw (by decide)
  | quotient v m =>
    have hd : i.op = .div := h
    refine ⟨fun _ => rfl, fun _ => rfl, ?_, ?_⟩
    · rintro rfl; exact absurd hd (by decide)
    · rintro (rfl | rfl | rfl) <;> exact absurd hd (by decide)
  | meat v len =>
    obtain ⟨rfl, -⟩ := h
    exact ⟨fun _ => rfl, nofun, fun _ => rfl, fun hi => absurd hi (by decide)⟩
  | output out =>
    obtain ⟨hi, -⟩ := h
    refine ⟨?_, ?_, ?_, fun _ => ⟨rfl, fun k hk => obufByte_produce_eq out s s' hk⟩⟩ <;>
      rcases hi with rfl | rfl | rfl <;> intro hc <;> exact absurd hc (by decide)

/-- An update touches result registers and OBUF only. -/
theorem Update.apply_frame (u : Update) (s : State) :
    u.apply s = { s with
      r := (u.apply s).r, rem := (u.apply s).rem, obuf := (u.apply s).obuf,
      olen := (u.apply s).olen, clen := (u.apply s).clen } := by
  cases u <;> rfl

/-- Settles O47, from the frame of a command's three ends and the write set of a success. -/
theorem commandsWriteOnlyTheirWriteSets : Obligations.CommandsWriteOnlyTheirWriteSets := by
  intro i s t h
  rcases exec_cases h with ⟨e, rfl⟩ | ⟨-, rfl⟩ | ⟨u, hu, rfl⟩
  case inl | inr.inl =>
    exact ⟨rfl, fun _ _ => rfl, fun _ => rfl, fun _ => rfl, fun _ _ _ => ⟨rfl, fun _ => rfl⟩,
      fun _ => rfl⟩
  obtain ⟨hr, hrem, hclen, hout⟩ := hu.keeps s
  refine ⟨?_, hr, hrem, hclen, fun h1 h2 h3 => ?_, fun k => ?_⟩
  · rw [u.apply_frame s]; rfl
  · obtain ⟨holen, hobuf⟩ := hout h1 h2 h3
    refine ⟨holen, fun k => ?_⟩
    rw [u.apply_frame s]
    simp only [State.obufByte, succeed_obuf, succeed_draws, hobuf]
  · rw [u.apply_frame s]; rfl

/-- Settles O48: the two runs end in the same error, or in the same update. -/
theorem resultsDependOnOperandsOnly : Obligations.ResultsDependOnOperandsOnly := by
  intro i s s' hcfg ha hb hilen hbytes
  by_cases hi : i = .clrerr
  · subst hi
    exact ⟨_, _, rfl, rfl, rfl, fun _ => rfl, fun _ =>
      ⟨fun hc => absurd hc (by decide), nofun, nofun, fun hc => absurd hc (by decide)⟩⟩
  have hsame : SameOperands s s' := ⟨hcfg, ha, hb, hilen, fun k _ hk => hbytes k hk⟩
  obtain ⟨e, hs, hs'⟩ | ⟨u, hu, hs, hs'⟩ := exec_pair hi hsame
  · exact ⟨_, _, hs, hs', rfl, fun _ => rfl, fun herr => absurd herr (raise_code_le e).2⟩
  · refine ⟨_, _, hs, hs', rfl, ?_, fun _ => hu.determines s s'⟩
    rintro (hc | herr)
    · exact absurd hc hi
    · exact absurd rfl herr

/-- Settles O49: contents that agree before ILEN are the same operands, and no end writes IBUF. -/
theorem bytesFromIlenOnAreNotRead : Obligations.BytesFromIlenOnAreNotRead := by
  intro i s t m hi hbytes ht
  have hne : i ≠ .clrerr := by rintro rfl; exact absurd hi (by decide)
  have hsame : SameOperands s { s with ibuf := m } :=
    ⟨rfl, rfl, rfl, rfl, fun k hk _ => hbytes k hk⟩
  obtain ⟨e, hs, hs'⟩ | ⟨u, -, hs, hs'⟩ := exec_pair hne hsame
  · rw [hs] at ht; cases ht
    exact hs'
  · rw [hs] at ht; cases ht
    rw [hs']
    cases u <;> rfl

/-- Settles O50: the check of ILEN stands first in all three commands (60_exceptions.md R173). -/
theorem oversizedIlenRaises : Obligations.OversizedIlenRaises := by
  intro i s hi hbig
  rcases hi with rfl | rfl | rfl
  · exact congrArg (finish s) (vlDecode_oversized hbig)
  · exact congrArg (finish s) (b59Encode_oversized hbig)
  · exact congrArg (finish s) (b59Decode_oversized hbig)

/-! ## What a step does -/

/-- Settles O5: the served write is the command word's, which the decoder reads as `i`. -/
theorem cmdWriteRunsTheDecodedCommand : Obligations.CmdWriteRunsTheDecodedCommand := by
  intro s v i rest hq hr hv
  calc step s = serveEvent (cmdWrite v) { s with hostQueue := rest } := stepHost_cons hq
    _ = withResponse .done (performCommand v { s with hostQueue := rest, cmd := v }) :=
        serveEvent_cmdWrite v hr
    _ = withResponse .done (exec i { s with hostQueue := rest, cmd := v }) := by
        rw [performCommand, hv]

/-- Settles O8. -/
theorem idleBlockDoesNothing : Obligations.IdleBlockDoesNothing := fun _ hq => stepHost_nil hq

/-- A write issued now to a name other than CMD stores its word and is answered. -/
theorem issue_wr {s : State} {reg : Reg} (v : Word) (hreg : reg ≠ .cmd) (hr : s.inReset = false) :
    issue (wr reg v) s = .next (respond .done (writeReg reg v s)) :=
  (issue_eq _ s).trans (serveEvent_wr v hreg hr)

/-- A register with word k replaced: word k reads the new value and the other three as before. -/
theorem getWord_setWord (x : Wide) (j k : Fin 4) (v : Word) :
    getWord (setWord x k v) j = if j.val = k.val then v else getWord x j := by
  split
  next h => obtain rfl := Fin.ext h; exact getWord_setWord_same x j v
  next h => exact getWord_setWord_other x v fun hjk => h (congrArg Fin.val hjk)

/-- Settles O14: the write stores its word in the named register, whose words or bytes are read back
one by one. -/
theorem wordWritesStoreTheirWord : Obligations.WordWritesStoreTheirWord := by
  intro s v hr
  refine ⟨fun k hk => ?_, fun k hk => ?_, ?_, fun k hk => ?_⟩
  · exact ⟨_, issue_wr (reg := .a ⟨k, hk⟩) v nofun hr, rfl, fun j hj =>
      getWord_setWord s.a ⟨j, hj⟩ ⟨k, hk⟩ v⟩
  · exact ⟨_, issue_wr (reg := .b ⟨k, hk⟩) v nofun hr, rfl, fun j hj =>
      getWord_setWord s.b ⟨j, hj⟩ ⟨k, hk⟩ v⟩
  · rw [← BitVec.setWidth_eq_extractLsb' (by decide : 7 ≤ 32)]
    exact issue_wr (reg := .ilen) v nofun hr
  · exact ⟨_, issue_wr (reg := .ibuf ⟨k, hk⟩) v nofun hr, rfl,
      writeReg_ibufByte ⟨k, hk⟩ v s, fun _ => rfl⟩

/-- Settles O51: among the six ways to serve an event, only a performed CLRERR and the events of the
reset input can clear STICKY. -/
theorem stickyIsClearedOnlyByClrerrOrReset : Obligations.StickyIsClearedOnlyByClrerrOrReset := by
  intro s t h hs ht
  obtain rfl | ⟨e, rest, hq, hserve⟩ := step_cases h
  · exact absurd (hs.symm.trans ht) nofun
  refine ⟨e, rest, hq, ?_⟩
  cases hserve with
  | answered x y => exact absurd (hs.symm.trans ht) nofun
  | stored x reg v =>
    rw [respond_sticky, writeReg_sticky] at ht
    exact absurd (hs.symm.trans ht) nofun
  | performed v u _ hu =>
    obtain rfl | ⟨i, hi, hexec⟩ := performCommand_cases hu
    · exact absurd ht nofun
    · obtain rfl := eq_clrerr_of_exec_clears_sticky hexec hs ht
      exact .inl (by rw [decode_clrerr hi])
  | asserted => exact .inr (.inl rfl)
  | released => exact .inr (.inr (.inl rfl))
  | aborted v => exact .inr (.inr (.inr ⟨v, rfl⟩))

/-- Settles O57. -/
theorem stepNeverChangesTheParameters : Obligations.StepNeverChangesTheParameters := by
  intro s t h
  obtain rfl | ⟨e, rest, -, hserve⟩ := step_cases h
  · rfl
  · exact hserve.cfg

/-! ## The reset state and the invariant -/

/-- Settles O52. -/
theorem resetStateHasTheResetValues : Obligations.ResetStateHasTheResetValues :=
  ⟨rfl, rfl, rfl, rfl, rfl, rfl, rfl, rfl, rfl, rfl, fun _ => ⟨rfl, rfl⟩⟩

/-- Settles O55: the default parameters pass every check, and everything else is 0 or empty. -/
theorem resetStateMeetsTheInvariant : Obligations.ResetStateMeetsTheInvariant where
  cfgWf := show defaultConfig.wf = true by decide
  memory := ⟨rfl, rfl, rfl, rfl⟩
  status := statusInv_of_ok rfl
  lengths := lengthInv_of_zero rfl rfl
  reset := resetInv_of_released rfl

/-- Settles O56, by the ways a step can serve an event. -/
theorem stepKeepsTheInvariant : Obligations.StepKeepsTheInvariant := by
  intro s t hinv h
  obtain rfl | ⟨e, rest, -, hserve⟩ := step_cases h
  · exact hinv
  · exact inv_serves (inv_withQueue hinv rest) hserve

end Sys2Proof.Machine
end

section
/-! PROOF. The statements of 20_memory.md: each settled from the laws of the port, the address map and
the buffers, and from the rules below. -/

namespace Sys2Proof.Machine

/-! ## The queue of the host (20_memory.md R60) -/

theorem writeWord_withQueue (off : Offset) (v : Word) (s : State) (q : List HostEvent) :
    writeWord off v { s with hostQueue := q } = withQueue q (writeWord off v s) := by
  rcases h : regAt? off with _ | reg
  · simp only [writeWord, h]; rfl
  cases reg with
  | cmd =>
    simp only [writeWord, h, performCommand]
    split
    · exact exec_withQueue _ { s with cmd := v } q
    · rfl
  | status | ilen | olen | clen | rem | a | b | r | ibuf | obuf => simp only [writeWord, h]; rfl

theorem withResponse_withQueue (y : Response) (q : List HostEvent) (o : Result) :
    withResponse y (withQueue q o) = withQueue q (withResponse y o) := by
  cases o <;> rfl

/-- Serving an event neither reads nor writes the events queued behind it. -/
theorem serveEvent_withQueue (e : HostEvent) (s : State) (q : List HostEvent) :
    serveEvent e { s with hostQueue := q } = withQueue q (serveEvent e s) := by
  cases e with
  | access x =>
    simp only [serveEvent, serveAccess]
    split
    · rfl
    cases x with
    | read n off => rfl
    | write n off v => simp only [writeWord_withQueue, withResponse_withQueue]
  | assertReset | abortedCommand => simp only [serveEvent, assertReset]; split <;> rfl
  | releaseReset => simp only [serveEvent, releaseReset]; split <;> rfl

/-- Serving an event always ends in a next state. -/
theorem serveEvent_next (e : HostEvent) (s : State) : ∃ t, serveEvent e s = .next t := by
  cases e with
  | assertReset | releaseReset | abortedCommand => exact ⟨_, rfl⟩
  | access x =>
    simp only [serveEvent, serveAccess]
    split
    · exact ⟨_, rfl⟩
    cases x with
    | read n off => exact ⟨_, rfl⟩
    | write n off v =>
      obtain ⟨-, hw⟩ | ⟨reg, -, -, hw⟩ | ⟨-, hw⟩ := writeWord_cases off v s
      · obtain ⟨t, ht, -⟩ := performCommand_ends v { s with cmd := v }
        exact ⟨_, by simp only [hw, ht]; rfl⟩
      · exact ⟨_, by simp only [hw]; rfl⟩
      · exact ⟨_, by simp only [hw]; rfl⟩

theorem run_succ_of_step {s t : State} (n : Nat) (h : step s = .next t) :
    Host.Core.run core (n + 1) s = Host.Core.run core n t := by
  simp only [Host.Core.run, show core.step s = .next t from h]

theorem serveEvent_of_queue {e : HostEvent} {s t : State} (h : serveEvent e s = .next t)
    (q : List HostEvent) :
    serveEvent e { s with hostQueue := q } = .next { t with hostQueue := q } := by
  rw [serveEvent_withQueue, h]; rfl

/-- Settles O9, by induction on the events: serving the first does not depend on the queue behind
it. -/
theorem runServesEventsInIssueOrder : Obligations.RunServesEventsInIssueOrder := by
  intro es rest s
  induction es generalizing s with
  | nil => rfl
  | cons e es ih =>
    obtain ⟨t, ht⟩ := serveEvent_next e s
    have hstep : step { s with hostQueue := e :: (es ++ rest) }
        = .next { t with hostQueue := es ++ rest } :=
      (stepHost_cons rfl).trans (serveEvent_of_queue ht (es ++ rest))
    have hone : runEvents [e] { s with hostQueue := rest } = .next { t with hostQueue := rest } := by
      rw [runEvents, serveEvent_of_queue ht rest]; rfl
    exact (run_succ_of_step es.length hstep).trans ((ih t).trans (runEvents_append hone).symm)

/-! ## The address map (20_memory.md R55)

Where the rows of words stand, and what the word at each name reads. -/

@[simp] theorem offset_a_toNat (k : Fin 4) : (Reg.a k).offset.toNat = 0x020 + 4 * k.val :=
  Nat.mod_eq_of_lt (by omega)

@[simp] theorem offset_b_toNat (k : Fin 4) : (Reg.b k).offset.toNat = 0x030 + 4 * k.val :=
  Nat.mod_eq_of_lt (by omega)

@[simp] theorem offset_r_toNat (k : Fin 4) : (Reg.r k).offset.toNat = 0x040 + 4 * k.val :=
  Nat.mod_eq_of_lt (by omega)

@[simp] theorem offset_ibuf_toNat (k : Fin 16) : (Reg.ibuf k).offset.toNat = 0x100 + 4 * k.val :=
  Nat.mod_eq_of_lt (by omega)

@[simp] theorem offset_obuf_toNat (k : Fin 16) : (Reg.obuf k).offset.toNat = 0x140 + 4 * k.val :=
  Nat.mod_eq_of_lt (by omega)

/-- No name stands in the three reserved ranges. -/
theorem regAt?_reserved {off : Offset}
    (h : (0x018 ≤ off.toNat ∧ off.toNat < 0x020) ∨ (0x050 ≤ off.toNat ∧ off.toNat < 0x100)
      ∨ 0x180 ≤ off.toNat) : regAt? off = none := by
  refine regAt?_none.2 fun reg hreg => ?_
  subst hreg
  cases reg with
  | cmd | status | ilen | olen | clen | rem => revert h; decide
  | a k | b k | r k | ibuf k | obuf k => simp at h; omega

@[simp] theorem readWord_cmd (s : State) : readWord Reg.cmd.offset s = s.cmd := rfl

@[simp] theorem readWord_status (s : State) : readWord Reg.status.offset s = s.statusWord := rfl

@[simp] theorem readWord_ilen (s : State) : readWord Reg.ilen.offset s = s.ilen.setWidth 32 := rfl

@[simp] theorem readWord_olen (s : State) : readWord Reg.olen.offset s = s.olen.setWidth 32 := rfl

@[simp] theorem readWord_clen (s : State) : readWord Reg.clen.offset s = s.clen.setWidth 32 := rfl

@[simp] theorem readWord_rem (s : State) : readWord Reg.rem.offset s = s.rem.setWidth 32 := rfl

@[simp] theorem readWord_a (k : Fin 4) (s : State) :
    readWord (Reg.a k).offset s = getWord s.a k := by
  simp [readWord, regAt?_offset]

@[simp] theorem readWord_b (k : Fin 4) (s : State) :
    readWord (Reg.b k).offset s = getWord s.b k := by
  simp [readWord, regAt?_offset]

@[simp] theorem readWord_r (k : Fin 4) (s : State) :
    readWord (Reg.r k).offset s = getWord s.r k := by
  simp [readWord, regAt?_offset]

@[simp] theorem readWord_ibuf (k : Fin 16) (s : State) :
    readWord (Reg.ibuf k).offset s
      = laneWord (s.ibufByte (4 * k.val)) (s.ibufByte (4 * k.val + 1))
          (s.ibufByte (4 * k.val + 2)) (s.ibufByte (4 * k.val + 3)) := by
  simp [readWord, regAt?_offset]

@[simp] theorem readWord_obuf (k : Fin 16) (s : State) :
    readWord (Reg.obuf k).offset s
      = laneWord (s.obufByte (4 * k.val)) (s.obufByte (4 * k.val + 1))
          (s.obufByte (4 * k.val + 2)) (s.obufByte (4 * k.val + 3)) := by
  simp [readWord, regAt?_offset]

theorem readWord_reserved {off : Offset} (h : regAt? off = none) (s : State) :
    readWord off s = 0 := by
  simp [readWord, h]

/-- Lane j of the word of four neighbouring bytes is byte j of them (20_memory.md R51). -/
theorem laneByte_laneWord_eq (f : Nat → Byte) (n : Nat) {j : Nat} (hj : j < 4) :
    laneByte (laneWord (f n) (f (n + 1)) (f (n + 2)) (f (n + 3))) j = f (n + j) := by
  obtain ⟨h0, h1, h2, h3⟩ := laneByte_laneWord (f n) (f (n + 1)) (f (n + 2)) (f (n + 3))
  obtain rfl | rfl | rfl | rfl : j = 0 ∨ j = 1 ∨ j = 2 ∨ j = 3 := by omega
  · exact h0
  · exact h1
  · exact h2
  · exact h3

theorem laneByte_readWord_ibuf (s : State) (k : Fin 16) {j : Nat} (hj : j < 4) :
    laneByte (readWord (Reg.ibuf k).offset s) j = s.ibufByte (4 * k.val + j) := by
  rw [readWord_ibuf, laneByte_laneWord_eq s.ibufByte _ hj]

theorem laneByte_readWord_obuf (s : State) (k : Fin 16) {j : Nat} (hj : j < 4) :
    laneByte (readWord (Reg.obuf k).offset s) j = s.obufByte (4 * k.val + j) := by
  rw [readWord_obuf, laneByte_laneWord_eq s.obufByte _ hj]

/-- The fields of the STATUS word (10_state.md R31). -/
theorem statusWord_fields (s : State) :
    s.statusWord.extractLsb' 0 8 = s.err ∧ s.statusWord.getLsbD 8 = s.sticky
      ∧ s.statusWord.extractLsb' 9 23 = 0 := by
  refine ⟨BitVec.extractLsb'_append_eq_right, ?_, ?_⟩
  · rw [State.statusWord, BitVec.getLsbD_append, if_neg (by decide), BitVec.getLsbD_append,
      if_pos (by decide)]
    simp
  · rw [State.statusWord, BitVec.extractLsb'_append_eq_of_le (by decide)]
    exact BitVec.extractLsb'_append_eq_left

/-- Settles O13: each name's word is read by its own rule, and no name stands in the reserved
ranges. -/
theorem wordReadsFollowTheAddressMap : Obligations.WordReadsFollowTheAddressMap := by
  intro s
  refine ⟨readWord_cmd s, statusWord_fields s, ?_, ?_, ?_, ?_, fun k hk => readWord_a ⟨k, hk⟩ s,
    fun k hk => readWord_b ⟨k, hk⟩ s, fun k hk => readWord_r ⟨k, hk⟩ s,
    fun k hk _ hj => laneByte_readWord_ibuf s ⟨k, hk⟩ hj,
    fun k hk _ hj => laneByte_readWord_obuf s ⟨k, hk⟩ hj,
    fun _ _ h => readWord_reserved (regAt?_reserved h) s⟩
  · exact (congrArg BitVec.toNat (readWord_ilen s)).trans (BitVec.toNat_setWidth_of_le (by decide))
  · exact (congrArg BitVec.toNat (readWord_olen s)).trans (BitVec.toNat_setWidth_of_le (by decide))
  · exact (congrArg BitVec.toNat (readWord_clen s)).trans (BitVec.toNat_setWidth_of_le (by decide))
  · exact (congrArg BitVec.toNat (readWord_rem s)).trans (BitVec.toNat_setWidth_of_le (by decide))

/-! ## What a word write does (20_memory.md R56, R57) -/

/-- The accesses that the port serves (20_memory.md R54). -/
theorem Access.legal_iff {x : Access} : x.legal = true ↔ x.bytes = 4 ∧ x.offset.toNat % 4 = 0 := by
  simp [Access.legal]

/-- A write issued now to a reserved offset is answered and changes nothing else. -/
theorem issue_write_reserved {s : State} {off : Offset} (v : Word) (h : regAt? off = none)
    (hr : s.inReset = false) (hal : off.toNat % 4 = 0) :
    issue (.access (.write 4 off v)) s = .next (respond .done s) := by
  have hw : writeWord off v s = .next s := by rw [writeWord, h]
  exact (serveAccess_write hr (Access.legal_iff.2 ⟨rfl, hal⟩)).trans (by rw [hw]; rfl)

@[simp] theorem writeReg_inReset (reg : Reg) (v : Word) (s : State) :
    (writeReg reg v s).inReset = s.inReset := by
  cases reg <;> rfl

@[simp] theorem writeReg_err (reg : Reg) (v : Word) (s : State) :
    (writeReg reg v s).err = s.err := by
  cases reg <;> rfl

/-- The port's answers play no part in a stored word. -/
theorem writeReg_respond (reg : Reg) (v : Word) (y : Response) (s : State) :
    writeReg reg v (respond y s) = respond y (writeReg reg v s) := by
  cases reg <;> rfl

@[simp] theorem readWord_respond (off : Offset) (y : Response) (s : State) :
    readWord off (respond y s) = readWord off s := rfl

/-- A name outside CMD, ILEN, A, B and IBUF is read-only: the value written to it is lost. -/
theorem writeReg_readOnly {reg : Reg}
    (h : reg.offset.toNat = 0x004 ∨ (0x00C ≤ reg.offset.toNat ∧ reg.offset.toNat < 0x020)
      ∨ (0x040 ≤ reg.offset.toNat ∧ reg.offset.toNat < 0x100) ∨ 0x140 ≤ reg.offset.toNat)
    (v : Word) (s : State) : writeReg reg v s = s := by
  cases reg with
  | status | olen | clen | rem | r k | obuf k => rfl
  | cmd | ilen => exact absurd h (by decide)
  | a k | b k | ibuf k => simp at h; omega

/-- Settles O15: a name at such an offset is read-only, and without a name the offset is reserved. -/
theorem readOnlyAndReservedWritesAreIgnored : Obligations.ReadOnlyAndReservedWritesAreIgnored := by
  intro s off v hr hal hoff
  rcases h : regAt? off with _ | reg
  · exact issue_write_reserved v h hr hal
  · obtain rfl := regAt?_some h
    have hreg : reg ≠ .cmd := by rintro rfl; revert hoff; decide
    exact (issue_wr v hreg hr).trans (by rw [writeReg_readOnly hoff]; rfl)

/-- The aligned offsets of these ranges are those of ILEN and of the words of A, B and IBUF. -/
theorem eq_offset_of_stored {off : Offset} (hal : off.toNat % 4 = 0)
    (h : off.toNat = 0x008 ∨ (0x020 ≤ off.toNat ∧ off.toNat < 0x040)
      ∨ (0x100 ≤ off.toNat ∧ off.toNat < 0x140)) :
    off = Reg.ilen.offset ∨ (∃ k, off = (Reg.a k).offset) ∨ (∃ k, off = (Reg.b k).offset)
      ∨ ∃ k, off = (Reg.ibuf k).offset := by
  rcases h with h | h | h
  · exact .inl (BitVec.eq_of_toNat_eq h)
  · by_cases hb : off.toNat < 0x030
    · exact .inr (.inl ⟨⟨(off.toNat - 0x020) / 4, by omega⟩,
        BitVec.eq_of_toNat_eq (by rw [offset_a_toNat]; dsimp only; omega)⟩)
    · exact .inr (.inr (.inl ⟨⟨(off.toNat - 0x030) / 4, by omega⟩,
        BitVec.eq_of_toNat_eq (by rw [offset_b_toNat]; dsimp only; omega)⟩))
  · exact .inr (.inr (.inr ⟨⟨(off.toNat - 0x100) / 4, by omega⟩,
      BitVec.eq_of_toNat_eq (by rw [offset_ibuf_toNat]; dsimp only; omega)⟩))

/-- The word written to an IBUF offset is the word read there. -/
theorem readWord_writeReg_ibuf (k : Fin 16) (v : Word) (s : State) :
    readWord (Reg.ibuf k).offset (writeReg (.ibuf k) v s) = v := by
  have hlane : ∀ j < 4, (writeReg (.ibuf k) v s).ibufByte (4 * k.val + j) = laneByte v j := by
    intro j hj
    rw [writeReg_ibufByte, if_pos (by omega), Nat.add_sub_cancel_left]
  rw [readWord_ibuf, hlane 1 (by decide), hlane 2 (by decide), hlane 3 (by decide),
    show (writeReg (.ibuf k) v s).ibufByte (4 * k.val) = laneByte v 0 from hlane 0 (by decide)]
  exact laneWord_laneByte v

/-- ILEN keeps the low 7 bits of the word written to it (10_state.md R32). -/
theorem readWord_writeReg_ilen (v : Word) (s : State) :
    readWord Reg.ilen.offset (writeReg .ilen v s) = v &&& 0x7F := by
  apply BitVec.eq_of_toNat_eq
  rw [readWord_ilen, BitVec.toNat_setWidth_of_le (by decide)]
  exact (Nat.and_two_pow_sub_one_eq_mod v.toNat 7).symm

/-- A write to a name other than CMD, and the read of that name after it. -/
theorem issue_wr_rd {s : State} {reg : Reg} {v w : Word} (hreg : reg ≠ .cmd)
    (hr : s.inReset = false) (hw : readWord reg.offset (writeReg reg v s) = w) :
    ∃ t, issue (wr reg v) s = .next t ∧ issue (rd reg) t = .next (respond (.data w) t) := by
  refine ⟨_, issue_wr v hreg hr, ?_⟩
  rw [issue_eq, serveEvent_rd reg (by simpa using hr), readWord_respond, hw]

/-- Settles O16: the offset is ILEN's or a word of A, B or IBUF, and each reads back what it stored. -/
theorem writtenWordReadsBack : Obligations.WrittenWordReadsBack := by
  intro s off v hr hal hoff
  obtain rfl | ⟨k, rfl⟩ | ⟨k, rfl⟩ | ⟨k, rfl⟩ := eq_offset_of_stored hal hoff
  · exact issue_wr_rd nofun hr (readWord_writeReg_ilen v s)
  · rw [if_neg (by rw [offset_a_toNat]; omega)]
    exact issue_wr_rd nofun hr ((readWord_a k _).trans (getWord_setWord_same s.a k v))
  · rw [if_neg (by rw [offset_b_toNat]; omega)]
    exact issue_wr_rd nofun hr ((readWord_b k _).trans (getWord_setWord_same s.b k v))
  · rw [if_neg (by rw [offset_ibuf_toNat]; omega)]
    exact issue_wr_rd nofun hr (readWord_writeReg_ibuf k v s)

/-! ## Writing the same word twice (20_memory.md R57) -/

theorem Memory.put_cons_lt {i k : Nat} (h : i < k) (b v : Byte) (m : Memory) :
    Memory.put ((k, b) :: m) i v = (i, v) :: (k, b) :: m := by
  simp [Memory.put, h]

theorem Memory.put_cons_same (k : Nat) (b v : Byte) (m : Memory) :
    Memory.put ((k, b) :: m) k v = (k, v) :: m := by
  simp [Memory.put]

theorem Memory.put_cons_gt {i k : Nat} (h : k < i) (b v : Byte) (m : Memory) :
    Memory.put ((k, b) :: m) i v = (k, b) :: m.put i v := by
  simp [Memory.put, Nat.lt_asymm h, Nat.ne_of_gt h]

/-- A second write of one index replaces the first. -/
theorem Memory.put_put_same (m : Memory) (i : Nat) (v w : Byte) :
    (m.put i v).put i w = m.put i w := by
  induction m with
  | nil => exact Memory.put_cons_same i v w []
  | cons e m ih =>
    obtain ⟨k, b⟩ := e
    rcases Nat.lt_trichotomy i k with hik | rfl | hik
    · rw [Memory.put_cons_lt hik, Memory.put_cons_lt hik, Memory.put_cons_same]
    · rw [Memory.put_cons_same, Memory.put_cons_same, Memory.put_cons_same]
    · rw [Memory.put_cons_gt hik, Memory.put_cons_gt hik, Memory.put_cons_gt hik, ih]

/-- Writes of two indices commute, in any list of entries. -/
theorem Memory.put_comm (m : Memory) {i j : Nat} (h : i < j) (v w : Byte) :
    (m.put i v).put j w = (m.put j w).put i v := by
  induction m with
  | nil => exact (Memory.put_cons_gt h v w []).trans (Memory.put_cons_lt h w v []).symm
  | cons e m ih =>
    obtain ⟨k, b⟩ := e
    rcases Nat.lt_trichotomy i k with hik | rfl | hik
    · rw [Memory.put_cons_lt hik, Memory.put_cons_gt h]
      rcases Nat.lt_trichotomy j k with hjk | rfl | hjk
      · rw [Memory.put_cons_lt hjk, Memory.put_cons_lt h]
      · rw [Memory.put_cons_same, Memory.put_cons_lt h]
      · rw [Memory.put_cons_gt hjk, Memory.put_cons_lt hik]
    · rw [Memory.put_cons_same, Memory.put_cons_gt h, Memory.put_cons_gt h, Memory.put_cons_same]
    · have hjk : k < j := hik.trans h
      rw [Memory.put_cons_gt hik, Memory.put_cons_gt hjk, Memory.put_cons_gt hjk,
        Memory.put_cons_gt hik, ih]

/-- A byte written below a string can be written first. -/
theorem Memory.put_putFrom_comm (m : Memory) {i j : Nat} (h : i < j) (v : Byte) (bs : List Byte) :
    (m.putFrom j bs).put i v = (m.put i v).putFrom j bs := by
  induction bs generalizing m j with
  | nil => rfl
  | cons b bs ih => rw [Memory.putFrom, Memory.putFrom, ih _ (by omega), Memory.put_comm m h]

/-- Writing a string a second time at one place changes nothing. -/
theorem Memory.putFrom_idem (m : Memory) (i : Nat) (bs : List Byte) :
    (m.putFrom i bs).putFrom i bs = m.putFrom i bs := by
  induction bs generalizing m i with
  | nil => rfl
  | cons b bs ih =>
    simp only [Memory.putFrom]
    rw [Memory.put_putFrom_comm _ (Nat.lt_succ_self i), Memory.put_put_same, ih]

/-- A register word replaced twice by one value: bit by bit, the mask and the value are the same. -/
theorem setWord_idem (x : Wide) (k : Fin 4) (v : Word) :
    setWord (setWord x k v) k v = setWord x k v := by
  apply BitVec.eq_of_getLsbD_eq
  intro i _
  simp only [setWord, BitVec.getLsbD_or, BitVec.getLsbD_and]
  grind

/-- Storing the same word a second time changes nothing. -/
theorem writeReg_idem (reg : Reg) (v : Word) (s : State) :
    writeReg reg v (writeReg reg v s) = writeReg reg v s := by
  cases reg with
  | cmd | ilen | status | olen | clen | rem | r | obuf => rfl
  | a k | b k => simp only [writeReg, setWord_idem]
  | ibuf k => simp only [writeReg, Memory.putFrom_idem]

/-- Settles O17: a stored word is stored again, and a reserved offset ignores both writes. -/
theorem repeatedWritesAreIdempotent : Obligations.RepeatedWritesAreIdempotent := by
  intro s off v hr hal hoff
  rcases h : regAt? off with _ | reg
  · exact ⟨_, issue_write_reserved v h hr hal, issue_write_reserved v h hr hal⟩
  · obtain rfl := regAt?_some h
    have hreg : reg ≠ .cmd := by rintro rfl; exact hoff rfl
    have hagain : writeReg reg v (respond .done (writeReg reg v s))
        = respond .done (writeReg reg v s) := by
      rw [writeReg_respond, writeReg_idem]
    exact ⟨_, issue_wr v hreg hr, (issue_wr v hreg (by simpa using hr)).trans (by rw [hagain]; rfl)⟩

/-! ## STATUS, bus errors, reads and the window -/

/-- Settles O18: of the ways to serve an access, only a performed command writes STATUS. -/
theorem statusChangesOnlyThroughCommands : Obligations.StatusChangesOnlyThroughCommands := by
  intro s t x hx h
  cases serveAccess_serves (x := x) h with
  | answered => exact ⟨rfl, rfl⟩
  | stored _ reg v => exact ⟨writeReg_err reg v s, writeReg_sticky reg v s⟩
  | performed v => exact absurd rfl (hx v)

/-- Settles O11: such an access is not legal. -/
theorem badAccessTakesABusError : Obligations.BadAccessTakesABusError := by
  intro s x hbad
  have hl : ¬ x.legal = true := fun h =>
    have ⟨hbytes, hal⟩ := Access.legal_iff.1 h
    hbad.elim (· hbytes) (· hal)
  exact serveAccess_refused (.inr (Bool.eq_false_of_not_eq_true hl))

/-- Settles O12: such a read is legal. -/
theorem readsHaveNoSideEffect : Obligations.ReadsHaveNoSideEffect := by
  intro s off hr hal
  exact serveAccess_read hr (Access.legal_iff.2 ⟨rfl, hal⟩)

/-- An address is decoded to an offset exactly when it is the offset's host address (20_memory.md R53). -/
theorem offsetOf?_eq_some {c : Config} {addr : Nat} {off : Offset} :
    offsetOf? c addr = some off ↔ hostAddr c off = addr := by
  have := off.isLt
  simp only [offsetOf?, hostAddr]
  constructor
  · intro h
    split at h
    next hin =>
      cases h
      rw [BitVec.toNat_ofNat]
      omega
    · cases h
  · rintro rfl
    rw [if_pos (by omega), Nat.add_sub_cancel_left, BitVec.ofNat_toNat, BitVec.setWidth_eq]

/-- Settles O19. -/
theorem windowIsTheFourKilobytesAtBase : Obligations.WindowIsTheFourKilobytesAtBase := by
  intro c
  refine ⟨fun off => offsetOf?_eq_some.2 rfl, fun _ _ => offsetOf?_eq_some.1, fun addr => ?_⟩
  simp only [offsetOf?]
  split
  next hin => simp; omega
  next hout => simp; omega

end Sys2Proof.Machine
end

section
/-! PROOF. The statements of 30_encoding.md about command words: a word is its five fields, the
encoder sets each of them, and the decoder, the four clauses of R74 and the opcode table read
nothing else. -/

namespace Sys2Proof.Machine

/-! ## The fields of a word (30_encoding.md R73) -/

/-- Two words with the same fields and the same reserved bits are one word. -/
theorem word_ext {c d : Word} (hop : opField c = opField d) (hw : wField c = wField d)
    (h7 : c.getLsbD 7 = d.getLsbD 7) (hs : shamtField c = shamtField d)
    (hhigh : c.extractLsb' 15 17 = d.extractLsb' 15 17) : c = d := by
  replace hop := congrArg BitVec.toNat hop
  replace hs := congrArg BitVec.toNat hs
  replace hhigh := congrArg BitVec.toNat hhigh
  simp only [opField, wField, shamtField, BitVec.extractLsb'_toNat, Nat.shiftRight_eq_div_pow,
    BitVec.getLsbD, Nat.testBit_eq_decide_div_mod_eq, decide_eq_decide] at hop hw h7 hs hhigh
  exact BitVec.eq_of_toNat_eq (by omega)

/-- A field of one bit is 0 exactly when its bit is clear. -/
theorem extractLsb'_one_eq_zero (c : Word) (k : Nat) :
    c.extractLsb' k 1 = 0 ↔ c.getLsbD k = false := by
  constructor
  · intro h
    simpa using congrArg (BitVec.getLsbD · 0) h
  · intro h
    apply BitVec.eq_of_getLsbD_eq
    intro j hj
    obtain rfl : j = 0 := by omega
    simpa using h

/-- The bits of an encoded command: OP, W and SHAMT, each in its place (30_encoding.md R77). -/
theorem getLsbD_encode (i : Instr) {k : Nat} (hk : k < 32) :
    (encode i).getLsbD k
      = (i.op.code.getLsbD k || (decide (k = 6) && i.w)
        || (decide (8 ≤ k) && i.shamt.getLsbD (k - 8))) := by
  simp only [encode, BitVec.getLsbD_or, BitVec.getLsbD_shiftLeft, BitVec.getLsbD_setWidth,
    BitVec.getLsbD_ofBool]
  grind

@[simp] theorem wField_encode (i : Instr) : wField (encode i) = i.w := by
  rw [wField, getLsbD_encode i (by decide)]
  simp

theorem getLsbD_seven_encode (i : Instr) : (encode i).getLsbD 7 = false := by
  rw [getLsbD_encode i (by decide)]
  simp

@[simp] theorem opField_encode (i : Instr) : opField (encode i) = i.op.code := by
  apply BitVec.eq_of_getLsbD_eq
  intro k hk
  rw [opField, BitVec.getLsbD_extractLsb', Nat.zero_add, getLsbD_encode i (by omega)]
  simp [hk, show k ≠ 6 by omega, show ¬ 8 ≤ k by omega]

@[simp] theorem shamtField_encode (i : Instr) : shamtField (encode i) = i.shamt := by
  apply BitVec.eq_of_getLsbD_eq
  intro k hk
  rw [shamtField, BitVec.getLsbD_extractLsb', getLsbD_encode i (by omega),
    BitVec.getLsbD_of_ge i.op.code _ (by omega)]
  simp [hk, show 8 + k ≠ 6 by omega]

theorem extractLsb'_high_encode (i : Instr) : (encode i).extractLsb' 15 17 = 0 := by
  apply BitVec.eq_of_getLsbD_eq
  intro k hk
  rw [BitVec.getLsbD_extractLsb', getLsbD_encode i (by omega),
    BitVec.getLsbD_of_ge i.op.code _ (by omega), BitVec.getLsbD_of_ge i.shamt _ (by omega)]
  simp [show 15 + k ≠ 6 by omega]

/-! ## Decoding (30_encoding.md R75) -/

@[simp] theorem ofCode?_code (op : Op) : Op.ofCode? op.code = some op := by
  cases op <;> rfl

/-- A command is the one that its own opcode, width and shift amount name. -/
@[simp] theorem assemble_fields (i : Instr) : assemble i.op i.w i.shamt = i := by
  cases i <;> rfl

theorem w_of_not_wide {i : Instr} (h : i.op.isWide = false) : i.w = false := by
  cases i with
  | nop | vlenc | vldec | b59enc | b59dec | clrerr => rfl
  | add64 | add128 | sub64 | sub128 | mul64 | mul128 | div64 | div128 | and64 | and128 | or64 | or128
  | xor64 | xor128 | shl64 | shl128 | shr64 | shr128 => cases h

theorem shamt_of_not_shift {i : Instr} (h : i.op.isShift = false) : i.shamt = 0 := by
  cases i with
  | shl64 | shl128 | shr64 | shr128 => cases h
  | add64 | add128 | sub64 | sub128 | mul64 | mul128 | div64 | div128 | and64 | and128 | or64 | or128
  | xor64 | xor128 | nop | vlenc | vldec | b59enc | b59dec | clrerr => rfl

/-- The fields of the command that a legal opcode, width and shift amount name. -/
theorem fields_assemble {op : Op} {w : Bool} {n : BitVec 7} (hw : op.isWide = false → w = false)
    (hs : op.isShift = false → n = 0) :
    (assemble op w n).op = op ∧ (assemble op w n).w = w ∧ (assemble op w n).shamt = n := by
  cases op with
  | nop | vlenc | vldec | b59enc | b59dec | clrerr => cases hw rfl; cases hs rfl; exact ⟨rfl, rfl, rfl⟩
  | add | sub | mul | div | and | or | xor => cases hs rfl; cases w <;> exact ⟨rfl, rfl, rfl⟩
  | shl | shr => cases w <;> exact ⟨rfl, rfl, rfl⟩

/-- A word that passes the four tests of R75 decodes to the command of its fields. -/
theorem decode_of_fields {c : Word} {op : Op} (hhigh : c.extractLsb' 15 17 = 0)
    (h7 : c.getLsbD 7 = false) (hop : opField c = op.code)
    (hw : op.isWide = false → wField c = false) (hs : op.isShift = false → shamtField c = 0) :
    decode c = .ok (assemble op (wField c) (shamtField c)) := by
  have hwide : (wField c && !op.isWide) = false := by
    cases h : op.isWide with
    | true => simp
    | false => simp [hw h]
  have hshift : (shamtField c != 0#7 && !op.isShift) = false := by
    cases h : op.isShift with
    | true => simp
    | false => simp [hs h]
  have hres : ¬ (c.extractLsb' 15 17 ≠ 0#17 ∨ c.getLsbD 7 = true) := by simp only [hhigh, h7]; decide
  rw [decode, if_neg hres, hop, ofCode?_code]
  simp only [hwide, hshift]
  rfl

theorem decode_encode (i : Instr) : decode (encode i) = .ok i := by
  rw [decode_of_fields (extractLsb'_high_encode i) (getLsbD_seven_encode i) (opField_encode i)
    (fun h => (wField_encode i).trans (w_of_not_wide h))
    (fun h => (shamtField_encode i).trans (shamt_of_not_shift h)), wField_encode,
    shamtField_encode, assemble_fields]

theorem encode_of_decode {c : Word} {i : Instr} (h : decode c = .ok i) : c = encode i := by
  obtain ⟨hhigh, h7, op, hop, rfl, hw, hs⟩ := decode_ok h
  obtain ⟨hiop, hiw, his⟩ := fields_assemble hw hs
  apply word_ext
  · rw [opField_encode, hiop, hop]
  · rw [wField_encode, hiw]
  · rw [getLsbD_seven_encode, h7]
  · rw [shamtField_encode, his]
  · rw [extractLsb'_high_encode, hhigh]

/-- Settles O1: the encoder sets every field of the word to the command's, and a decoded word agrees
with its command's encoding in every field. -/
theorem decodeIsExactlyTheInverseOfEncode : Obligations.DecodeIsExactlyTheInverseOfEncode := by
  intro c i
  constructor
  · exact encode_of_decode
  · rintro rfl
    exact decode_encode i

/-- Settles O4: each word is the encoding of its command. -/
theorem workedEncodingsDecode : Obligations.WorkedEncodingsDecode :=
  ⟨decode_encode .add64, decode_encode .add128, decode_encode .div64, decode_encode (.shl64 1),
    decode_encode (.shr128 31), decode_encode (.shr64 127), decode_encode .vlenc,
    decode_encode .b59dec, decode_encode .clrerr⟩

/-! ## The four clauses (30_encoding.md R74) -/

theorem reservedZero_iff {c : Word} :
    reservedZero c = true ↔ c.extractLsb' 15 17 = 0 ∧ c.getLsbD 7 = false := by
  simp only [reservedZero, Bool.and_eq_true, beq_iff_eq]
  exact and_congr_right fun _ => extractLsb'_one_eq_zero c 7

/-- The listed numbers are those of the fifteen opcodes (30_encoding.md R72). -/
theorem listedOpcodes_contains_iff {v : BitVec 6} :
    listedOpcodes.contains v = true ↔ ∃ op : Op, v = op.code := by
  constructor
  · have hcode : ∀ v : BitVec 6, listedOpcodes.contains v = true → (Op.ofCode? v).isSome = true := by
      decide
    intro h
    obtain ⟨op, hop⟩ := Option.isSome_iff_exists.1 (hcode v h)
    exact ⟨op, (code_of_ofCode? v op hop).symm⟩
  · rintro ⟨op, rfl⟩
    cases op <;> rfl

theorem wideOpcodes_contains_code (op : Op) : wideOpcodes.contains op.code = op.isWide := by
  cases op <;> rfl

theorem shiftOpcodes_contains_code (op : Op) : shiftOpcodes.contains op.code = op.isShift := by
  cases op <;> rfl

theorem widthAllowed_iff {c : Word} {op : Op} (hop : opField c = op.code) :
    widthAllowed c = true ↔ (op.isWide = false → wField c = false) := by
  rw [widthAllowed, show c.extractLsb' 0 6 = op.code from hop, wideOpcodes_contains_code,
    Bool.or_eq_true, beq_iff_eq, show c.extractLsb' 6 1 = 0 ↔ wField c = false from
      extractLsb'_one_eq_zero c 6]
  cases op.isWide <;> simp

theorem shamtAllowed_iff {c : Word} {op : Op} (hop : opField c = op.code) :
    shamtAllowed c = true ↔ (op.isShift = false → shamtField c = 0) := by
  rw [shamtAllowed, show c.extractLsb' 0 6 = op.code from hop, shiftOpcodes_contains_code,
    Bool.or_eq_true, beq_iff_eq, show c.extractLsb' 8 7 = shamtField c from rfl]
  cases op.isShift <;> simp

/-- The clauses of R74, said of the fields that the decoder reads. -/
theorem legalWord_iff {c : Word} :
    legalWord c = true ↔ (c.extractLsb' 15 17 = 0 ∧ c.getLsbD 7 = false)
      ∧ ∃ op : Op, opField c = op.code ∧ (op.isWide = false → wField c = false)
        ∧ (op.isShift = false → shamtField c = 0) := by
  simp only [legalWord, Bool.and_eq_true, and_assoc]
  constructor
  · rintro ⟨hres, hlisted, hwidth, hshamt⟩
    obtain ⟨op, hop⟩ := listedOpcodes_contains_iff.1 hlisted
    obtain ⟨hhigh, h7⟩ := reservedZero_iff.1 hres
    exact ⟨hhigh, h7, op, hop, (widthAllowed_iff hop).1 hwidth, (shamtAllowed_iff hop).1 hshamt⟩
  · rintro ⟨hhigh, h7, op, hop, hw, hs⟩
    exact ⟨reservedZero_iff.2 ⟨hhigh, h7⟩, listedOpcodes_contains_iff.2 ⟨op, hop⟩,
      (widthAllowed_iff hop).2 hw, (shamtAllowed_iff hop).2 hs⟩

/-- Settles O2: the clauses and the decoder's tests say the same of a word's fields. -/
theorem legalWordsAreTheDecodedWords : Obligations.LegalWordsAreTheDecodedWords := by
  intro c
  rw [legalWord_iff]
  constructor
  · rintro ⟨⟨hhigh, h7⟩, op, hop, hw, hs⟩
    exact ⟨_, decode_of_fields hhigh h7 hop hw hs⟩
  · rintro ⟨i, hi⟩
    obtain ⟨hhigh, h7, op, hop, -, hw, hs⟩ := decode_ok hi
    exact ⟨⟨hhigh, h7⟩, op, hop, hw, hs⟩

/-! ## The opcode table (30_encoding.md R75) -/

theorem covers_iff {row : OpRow} {c : Word} : row.covers c = true ↔ c &&& row.mask = row.bits :=
  beq_iff_eq

/-- Every command has its row in the opcode table. -/
theorem opcodeRow (i : Instr) : Laws.OpcodeRow.Statement i := by
  cases i with
  | add64 => exact Laws.OpcodeRow.add64
  | add128 => exact Laws.OpcodeRow.add128
  | sub64 => exact Laws.OpcodeRow.sub64
  | sub128 => exact Laws.OpcodeRow.sub128
  | mul64 => exact Laws.OpcodeRow.mul64
  | mul128 => exact Laws.OpcodeRow.mul128
  | div64 => exact Laws.OpcodeRow.div64
  | div128 => exact Laws.OpcodeRow.div128
  | shl64 n => exact Laws.OpcodeRow.shl64 n
  | shl128 n => exact Laws.OpcodeRow.shl128 n
  | shr64 n => exact Laws.OpcodeRow.shr64 n
  | shr128 n => exact Laws.OpcodeRow.shr128 n
  | and64 => exact Laws.OpcodeRow.and64
  | and128 => exact Laws.OpcodeRow.and128
  | or64 => exact Laws.OpcodeRow.or64
  | or128 => exact Laws.OpcodeRow.or128
  | xor64 => exact Laws.OpcodeRow.xor64
  | xor128 => exact Laws.OpcodeRow.xor128
  | nop => exact Laws.OpcodeRow.nop
  | vlenc => exact Laws.OpcodeRow.vlenc
  | vldec => exact Laws.OpcodeRow.vldec
  | b59enc => exact Laws.OpcodeRow.b59enc
  | b59dec => exact Laws.OpcodeRow.b59dec
  | clrerr => exact Laws.OpcodeRow.clrerr

/-- No word is covered by two rows: under both masks their match values would agree. -/
theorem eq_of_covers {row row' : OpRow} (hrow : row ∈ opcodeTable) (hrow' : row' ∈ opcodeTable)
    {c : Word} (h : row.covers c = true) (h' : row'.covers c = true) : row = row' := by
  have hdisjoint : ∀ row ∈ opcodeTable, ∀ row' ∈ opcodeTable,
      row.bits &&& row'.mask = row'.bits &&& row.mask → row = row' := by decide
  apply hdisjoint row hrow row' hrow'
  rw [← covers_iff.1 h, ← covers_iff.1 h', BitVec.and_assoc, BitVec.and_assoc,
    BitVec.and_comm row.mask]

/-- Every bit of a word but those of SHAMT. -/
def unshiftedMask : Word := 0xFFFF80FF

/-- A word whose SHAMT is cleared keeps its reserved bits, OP and W; so a shift word is legal if it
is legal without its amount. -/
theorem legalWord_of_unshifted {c : Word} (h : legalWord (c &&& unshiftedMask) = true)
    (hshift : shiftOpcodes.contains (opField (c &&& unshiftedMask)) = true) : legalWord c = true := by
  have hop : opField (c &&& unshiftedMask) = opField c := by
    rw [opField, BitVec.extractLsb'_and]
    exact BitVec.and_allOnes
  have hw : wField (c &&& unshiftedMask) = wField c := by
    rw [wField, BitVec.getLsbD_and]
    exact Bool.and_true _
  have h7 : (c &&& unshiftedMask).getLsbD 7 = c.getLsbD 7 := by
    rw [BitVec.getLsbD_and]
    exact Bool.and_true _
  have hhigh : (c &&& unshiftedMask).extractLsb' 15 17 = c.extractLsb' 15 17 := by
    rw [BitVec.extractLsb'_and]
    exact BitVec.and_allOnes
  obtain ⟨hres, op, hcode, hwide, -⟩ := legalWord_iff.1 h
  rw [hcode, shiftOpcodes_contains_code] at hshift
  rw [hhigh, h7] at hres
  rw [hop] at hcode
  rw [hw] at hwide
  exact legalWord_iff.2 ⟨hres, op, hcode, hwide, fun hno => absurd (hshift.symm.trans hno) nofun⟩

/-- A row's match value is a legal word; its mask leaves out SHAMT for a shift, and nothing else. -/
theorem row_legal : ∀ row ∈ opcodeTable, legalWord row.bits = true
    ∧ (row.mask = BitVec.allOnes 32
      ∨ row.mask = unshiftedMask ∧ shiftOpcodes.contains (opField row.bits) = true) := by
  decide

theorem legalWord_of_covers {row : OpRow} (hrow : row ∈ opcodeTable) {c : Word}
    (h : row.covers c = true) : legalWord c = true := by
  obtain ⟨hlegal, hmask | ⟨hmask, hshift⟩⟩ := row_legal row hrow
  · rwa [← covers_iff.1 h, hmask, BitVec.and_allOnes] at hlegal
  · rw [← covers_iff.1 h, hmask] at hlegal hshift
    exact legalWord_of_unshifted hlegal hshift

/-- Settles O3: the word is its command's encoding, which the command's row covers; two rows never
cover one word, and a covered word is legal. -/
theorem eachLegalWordHasOneOpcodeRow : Obligations.EachLegalWordHasOneOpcodeRow := by
  constructor
  · intro c i hi
    obtain ⟨row, hrow, hname, hcovers⟩ := opcodeRow i
    rw [← encode_of_decode hi] at hcovers
    refine ⟨row, hrow, hname, fun row' hrow' => ⟨fun h => eq_of_covers hrow' hrow h hcovers, ?_⟩⟩
    rintro rfl
    exact hcovers
  · intro c hc row hrow
    refine Bool.eq_false_of_not_eq_true fun h => ?_
    exact absurd ((legalWord_of_covers hrow h).symm.trans hc) nofun

/-! ## The fetch convention (log entry 6) -/

/-- A 32-bit word is its number modulo 2^32. -/
theorem ofNat_mod_word (w : Nat) : BitVec.ofNat 32 (w % 2 ^ 32) = BitVec.ofNat 32 w :=
  BitVec.eq_of_toNat_eq (Nat.mod_mod w (2 ^ 32))

/-- An opcode-table word of 32 bits is read as its 32-bit command word. -/
theorem decode_of_decodeTableWord {w : Nat} {i : Instr} (h : decodeTableWord 32 w = some i) :
    decode (BitVec.ofNat 32 (w % 2 ^ 32)) = .ok i := by
  rw [decodeTableWord, if_pos (Nat.mod_lt w (by decide))] at h
  split at h
  next j hj => cases h; exact hj
  · cases h

/-- Settles O6: the placed write stands first in the queue, and O5 says what serving it does. -/
theorem fetchWordIsRunNext : Obligations.FetchWordIsRunNext := by
  intro s w i h
  rw [State.withFetchWord, cmdWriteRunsTheDecodedCommand _ _ i s.hostQueue rfl rfl
    (decode_of_decodeTableWord h), ofNat_mod_word]
  rfl

end Sys2Proof.Machine
end

section
/-! PROOF. The pseudo-instructions of 30_encoding.md R79: each runs its accesses one by one, and what
they store adds up to the register, or the byte string, that it names. -/

namespace Sys2Proof.Machine

/-! ## Accesses in a row

The port's answers are kept apart from the rest of the state: no read and no stored word depends on
them. -/

/-- The state with the port's answers replaced. -/
def withAnswers (answers : List Response) (s : State) : State := { s with responses := answers }

theorem writeReg_withAnswers (reg : Reg) (v : Word) (answers : List Response) (s : State) :
    writeReg reg v (withAnswers answers s) = withAnswers answers (writeReg reg v s) := by
  cases reg <;> rfl

theorem runEvents_wr_cons {s : State} {reg : Reg} (v : Word) (es : List HostEvent)
    (answers : List Response) (hreg : reg ≠ .cmd) (hr : s.inReset = false) :
    runEvents (wr reg v :: es) (withAnswers answers s)
      = runEvents es (withAnswers (.done :: answers) (writeReg reg v s)) := by
  rw [runEvents, serveEvent_wr (s := withAnswers answers s) v hreg hr, writeReg_withAnswers]
  rfl

theorem runEvents_rd_cons {s : State} (reg : Reg) (es : List HostEvent) (answers : List Response)
    (hr : s.inReset = false) :
    runEvents (rd reg :: es) (withAnswers answers s)
      = runEvents es (withAnswers (.data (readWord reg.offset s) :: answers) s) := by
  rw [runEvents, serveEvent_rd (s := withAnswers answers s) reg hr]
  rfl

/-- A row of reads answers the words of the names, and changes nothing else. -/
theorem runEvents_rds (regs : List Reg) {s : State} (answers : List Response) (hr : s.inReset = false) :
    runEvents (regs.map rd) (withAnswers answers s)
      = .next (withAnswers
          ((regs.map fun reg => Response.data (readWord reg.offset s)).reverse ++ answers) s) := by
  induction regs generalizing answers with
  | nil => rfl
  | cons reg regs ih =>
    rw [List.map_cons, runEvents_rd_cons reg _ _ hr, ih]
    simp

/-! ## Loading an operand register -/

/-- The state with an operand register replaced whole. -/
def OperandReg.load (x : OperandReg) (v : Wide) (s : State) : State :=
  match x with
  | .A => { s with a := v }
  | .B => { s with b := v }

theorem OperandReg.word_ne_cmd (x : OperandReg) (k : Fin 4) : x.word k ≠ .cmd := by
  cases x <;> nofun

/-- A register is its four words (10_state.md R21). -/
theorem wide_ext {x y : Wide} (h : ∀ k, getWord x k = getWord y k) : x = y := by
  apply BitVec.eq_of_getLsbD_eq
  intro i hi
  have hbit := congrArg (BitVec.getLsbD · (i % 32)) (h ⟨i / 32, by omega⟩)
  simpa [getWord, Nat.mod_lt, Nat.div_add_mod] using hbit

/-- The four words of a value, set one after another, make up the value. -/
theorem setWord_getWord_all (x v : Wide) :
    setWord (setWord (setWord (setWord x 0 (getWord v 0)) 1 (getWord v 1)) 2 (getWord v 2)) 3 (getWord v 3)
      = v := by
  apply wide_ext
  intro k
  simp only [getWord_setWord]
  fin_cases k <;> rfl

/-- The four words of a value, written to an operand register, load it. -/
theorem writeReg_word_all (x : OperandReg) (v : Wide) (s : State) :
    writeReg (x.word 3) (getWord v 3) (writeReg (x.word 2) (getWord v 2)
      (writeReg (x.word 1) (getWord v 1) (writeReg (x.word 0) (getWord v 0) s))) = x.load v s := by
  cases x with
  | A => exact congrArg (fun a => { s with a := a }) (setWord_getWord_all s.a v)
  | B => exact congrArg (fun b => { s with b := b }) (setWord_getWord_all s.b v)

theorem runEvents_ld128 (x : OperandReg) (v : Wide) {s : State} (hr : s.inReset = false) :
    ∃ answers, runEvents (ld128Events x v) s = .next (withAnswers answers (x.load v s)) := by
  rw [show s = withAnswers s.responses s from rfl]
  simp only [ld128Events, runEvents_wr_cons, ne_eq, x.word_ne_cmd, not_false_eq_true, hr,
    writeReg_inReset, writeReg_word_all]
  exact ⟨_, rfl⟩

theorem runEvents_mov (x : OperandReg) (v : Wide) {s : State} (hr : s.inReset = false) :
    ∃ answers, runEvents (movEvents x v) s = .next (withAnswers answers (x.load v s)) := by
  rw [show s = withAnswers s.responses s from rfl]
  simp only [movEvents, runEvents_wr_cons, runEvents_rd_cons, ne_eq, x.word_ne_cmd,
    not_false_eq_true, hr, writeReg_inReset, writeReg_word_all]
  exact ⟨_, rfl⟩

/-- Settles O59: each of the three writes the four words of its value, and reads change nothing. -/
theorem registerPseudoInstructionsLoadX : Obligations.RegisterPseudoInstructionsLoadX := by
  intro s v d hr
  exact ⟨runEvents_ld128 .A v hr, runEvents_ld128 .B v hr, runEvents_ld128 .A _ hr,
    runEvents_ld128 .B _ hr, runEvents_mov .A s.r hr, runEvents_mov .B s.r hr⟩

/-! ## Moving byte strings -/

/-- n bytes lie in ceil(n / 4) words. -/
theorem le_four_mul_wordsFor (n : Nat) : n ≤ 4 * wordsFor n := by
  simp only [wordsFor]; omega

theorem wordsFor_le {n : Nat} (h : n ≤ 64) : wordsFor n ≤ 16 := by
  simp only [wordsFor]; omega

/-- The last access of ldbuf and mvbuf: ILEN takes the length, and only ILEN and the answers change. -/
theorem runEvents_wr_ilen {s : State} (n : Nat) (answers : List Response) (hr : s.inReset = false) :
    runEvents [wr .ilen (BitVec.ofNat 32 n)] (withAnswers answers s)
      = .next (withAnswers (.done :: answers) { s with ilen := BitVec.ofNat 7 n }) := by
  rw [runEvents_wr_cons (reg := .ilen) _ _ _ nofun hr, writeReg, BitVec.setWidth_ofNat_of_le (by decide)]
  rfl

theorem OnlyIbuf.inReset {s t : State} {answers : List Response} (h : OnlyIbuf s t answers) :
    t.inReset = s.inReset := by
  rw [h]

/-- ldbuf stores the string's words, then its length (30_encoding.md R79). -/
theorem runEvents_ldbuf {s : State} {str : List Byte} (hr : s.inReset = false)
    (hlen : str.length ≤ 64) :
    ∃ t, runEvents (ldbufEvents str) s = .next t
      ∧ t = { s with
              ibuf := t.ibuf
              ilen := BitVec.ofNat 7 str.length
              responses := List.replicate (wordsFor str.length + 1) Response.done ++ s.responses }
      ∧ ∀ i, t.ibufByte i
          = if i < 4 * wordsFor str.length then str.getD i 0 else s.ibufByte i := by
  obtain ⟨t, hrun, hframe, hbytes⟩ :=
    runEvents_storeWords (stringWord str) s hr (wordsFor str.length) (wordsFor_le hlen)
  refine ⟨_, (runEvents_append hrun).trans (runEvents_wr_ilen _ _ (hframe.inReset.trans hr)), ?_, ?_⟩
  · rw [OnlyIbuf] at hframe
    rw [hframe]
    rfl
  · intro i
    exact (hbytes i).trans (by rw [laneByte_stringWord])

/-- The words of OBUF, in lane order, are its bytes. -/
theorem flatMap_wordBytes_obufWord (s : State) {m : Nat} (hm : m ≤ 16) :
    (List.range m).flatMap (fun k => wordBytes (obufWord s k)) = s.obufBytes (4 * m) := by
  induction m with
  | zero => rfl
  | succ m ih =>
    have hlane : ∀ j < 4, laneByte (obufWord s m) j = s.obufByte (4 * m + j) := by
      intro j hj
      have hk : (Fin.ofNat 16 m).val = m := Nat.mod_eq_of_lt hm
      rw [obufWord, laneByte_readWord_obuf s _ hj, hk]
    have hword : wordBytes (obufWord s m) = (List.range 4).map fun j => s.obufByte (4 * m + j) := by
      rw [wordBytes, hlane 0 (by decide), hlane 1 (by decide), hlane 2 (by decide), hlane 3 (by decide)]
      rfl
    rw [List.range_succ, List.flatMap_append, ih (by omega), List.flatMap_singleton, hword,
      Nat.mul_succ, State.obufBytes, State.obufBytes, List.range_add, List.map_append, List.map_map]
    rfl

theorem rdbufResult_eq {s : State} (hlen : s.olen.toNat ≤ 64) :
    rdbufResult s = s.obufBytes s.olen.toNat := by
  rw [rdbufResult, flatMap_wordBytes_obufWord s (wordsFor_le hlen), State.obufBytes,
    ← List.map_take, List.take_range, Nat.min_eq_left (le_four_mul_wordsFor _)]
  rfl

/-- rdbuf's accesses are reads alone. -/
theorem runEvents_rdbuf {s : State} (hr : s.inReset = false) (n : Nat) :
    runEvents (rdbufEvents n) s = .next { s with
      responses :=
        (Response.data (s.olen.setWidth 32)
          :: (List.range (wordsFor n)).map (fun k => Response.data (obufWord s k))).reverse
        ++ s.responses } := by
  have hreads : rdbufEvents n
      = (Reg.olen :: (List.range (wordsFor n)).map fun k => .obuf (Fin.ofNat 16 k)).map rd := by
    rw [rdbufEvents, List.map_cons, List.map_map]
    rfl
  rw [hreads, show s = withAnswers s.responses s from rfl, runEvents_rds _ _ hr, List.map_cons, List.map_map]
  rfl

theorem obufWord_writeReg_ibuf (k : Fin 16) (v : Word) (s : State) (j : Nat) :
    obufWord (writeReg (.ibuf k) v s) j = obufWord s j := by
  rw [obufWord, obufWord, readWord_obuf, readWord_obuf]
  rfl

/-- A row of writes to IBUF with a read of an OBUF word before each: it ends as the writes alone do,
but for the answers of the reads, which are OBUF's words as they stood before. -/
theorem runEvents_copyWords (word : Nat → Word) (ks : List Nat) {s t : State} (hr : s.inReset = false)
    (old answers : List Response)
    (h : runEvents (ks.map fun k => wr (.ibuf (Fin.ofNat 16 k)) (word k)) (withAnswers old s) = .next t) :
    runEvents (ks.flatMap fun k => [rd (.obuf (Fin.ofNat 16 k)), wr (.ibuf (Fin.ofNat 16 k)) (word k)])
        (withAnswers answers s)
      = .next (withAnswers
          ((ks.flatMap fun k => [Response.data (obufWord s k), Response.done]).reverse ++ answers) t) := by
  induction ks generalizing s old answers with
  | nil => cases h; rfl
  | cons k ks ih =>
    have hreg : Reg.ibuf (Fin.ofNat 16 k) ≠ .cmd := nofun
    rw [List.map_cons, runEvents_wr_cons _ _ _ hreg hr] at h
    rw [List.flatMap_cons, List.cons_append, List.cons_append, List.nil_append,
      runEvents_rd_cons _ _ _ hr, runEvents_wr_cons _ _ _ hreg hr,
      ih (s := writeReg (.ibuf (Fin.ofNat 16 k)) (word k) s) hr _ _ h]
    simp only [obufWord_writeReg_ibuf, List.flatMap_cons, List.reverse_append, List.append_assoc]
    rfl

/-- mvbuf copies the words, then the length (30_encoding.md R79). -/
theorem runEvents_mvbuf {s : State} (hr : s.inReset = false) (hlen : s.olen.toNat ≤ 64) :
    ∃ t, runEvents (mvbufEvents s.olen.toNat (obufWord s)) s = .next t
      ∧ t = { s with
              ibuf := t.ibuf
              ilen := s.olen
              responses :=
                (Response.data (s.olen.setWidth 32)
                  :: (List.range (wordsFor s.olen.toNat)).flatMap
                      (fun k => [Response.data (obufWord s k), Response.done])
                  ++ [Response.done]).reverse
                ++ s.responses }
      ∧ ∀ i, t.ibufByte i
          = if i < 4 * wordsFor s.olen.toNat then s.obufByte i else s.ibufByte i := by
  have hwords := wordsFor_le hlen
  obtain ⟨t, hrun, hframe, hbytes⟩ :=
    runEvents_storeWords (obufWord s) s hr (wordsFor s.olen.toNat) hwords
  have hcopy := runEvents_copyWords (obufWord s) _ hr s.responses
    (.data (s.olen.setWidth 32) :: s.responses) hrun
  have hhead := (runEvents_rd_cons .olen _ s.responses hr).trans hcopy
  refine ⟨_, (runEvents_append hhead).trans (runEvents_wr_ilen _ _ (hframe.inReset.trans hr)), ?_, ?_⟩
  · rw [OnlyIbuf] at hframe
    rw [hframe]
    simp [withAnswers]
  · intro i
    refine (hbytes i).trans ?_
    split
    next hi => exact laneByte_obufWord s (by omega)
    · rfl

/-- Settles O60. -/
theorem bufferPseudoInstructionsMoveStrings : Obligations.BufferPseudoInstructionsMoveStrings := by
  intro s str hr
  exact ⟨runEvents_ldbuf hr,
    fun hlen => ⟨runEvents_rdbuf hr _, rdbufResult_eq hlen, runEvents_mvbuf hr hlen⟩⟩

end Sys2Proof.Machine
end

section
/-! PROOF. The WIDE unit in words of its width (40_wideint.md R100, R110): each formula of the spec on
natural numbers is the arithmetic of bit vectors, and R is the result zero-extended. -/

namespace Sys2Proof.Machine

/-! ## Operands and results -/

/-- The operand of width w is the register cut to w bits. -/
theorem operand_eq (w : Nat) (x : Wide) : operand w x = (x.setWidth w).toNat :=
  (BitVec.toNat_setWidth w x).symm

theorem divisor_eq (b : Wide) : divisor b = (b.setWidth 16).toNat :=
  (BitVec.toNat_setWidth 16 b).symm

theorem zext128_toNat {w : Nat} (v : BitVec w) : zext128 v.toNat = v.setWidth 128 :=
  BitVec.ofNat_toNat 128 v

/-- The whole effect of a WIDE command whose result is a word of w bits. -/
theorem wide_eq {w res : Nat} {v : BitVec w} (h : res = v.toNat) (s : State) :
    wide res s = .next { s with r := v.setWidth 128, err := 0 } := by
  rw [wide, h, zext128_toNat, finish_ok]
  rfl

/-! ## The formulas (40_wideint.md R101-R109) -/

section
variable (w : Nat) (x y : Wide)

theorem addMod_operand :
    addMod w (operand w x) (operand w y) = (x.setWidth w + y.setWidth w).toNat := by
  rw [addMod, operand_eq, operand_eq, BitVec.toNat_add]

theorem subMod_operand :
    subMod w (operand w x) (operand w y) = (x.setWidth w - y.setWidth w).toNat := by
  rw [subMod, operand_eq, operand_eq, BitVec.toNat_sub', Nat.add_sub_assoc (BitVec.isLt _).le]

theorem mulMod_operand :
    mulMod w (operand w x) (operand w y) = (x.setWidth w * y.setWidth w).toNat := by
  rw [mulMod, operand_eq, operand_eq, BitVec.toNat_mul]

theorem shlMod_operand (n : Nat) : shlMod w (operand w x) n = (x.setWidth w <<< n).toNat := by
  rw [shlMod, operand_eq, BitVec.toNat_shiftLeft, Nat.shiftLeft_eq]

theorem shrDiv_operand (n : Nat) : shrDiv (operand w x) n = (x.setWidth w >>> n).toNat := by
  rw [shrDiv, operand_eq, BitVec.toNat_ushiftRight, Nat.shiftRight_eq_div_pow]

theorem operand_and_operand :
    operand w x &&& operand w y = (x.setWidth w &&& y.setWidth w).toNat := by
  rw [operand_eq, operand_eq, BitVec.toNat_and]

theorem operand_or_operand :
    operand w x ||| operand w y = (x.setWidth w ||| y.setWidth w).toNat := by
  rw [operand_eq, operand_eq, BitVec.toNat_or]

theorem operand_xor_operand :
    operand w x ^^^ operand w y = (x.setWidth w ^^^ y.setWidth w).toNat := by
  rw [operand_eq, operand_eq, BitVec.toNat_xor]

end

/-! ## DIV (40_wideint.md R104) -/

theorem divide_of_divisor_zero {s : State} (w : Nat) (h : s.b.setWidth 16 = 0) :
    divide w s = .error .divideByZero := by
  simp [divide, divisor_eq, h]

theorem divide_of_divisor_ne_zero {s : State} {w : Nat} (hw : 16 ≤ w) (h : s.b.setWidth 16 ≠ 0) :
    divide w s = .ok { s with
      r := (s.a.setWidth w / (s.b.setWidth 16).setWidth w).setWidth 128
      rem := (s.a.setWidth w % (s.b.setWidth 16).setWidth w).setWidth 16 } := by
  have hd : divisor s.b ≠ 0 := fun h0 => h (BitVec.eq_of_toNat_eq ((divisor_eq s.b).symm.trans h0))
  have hext : divisor s.b = ((s.b.setWidth 16).setWidth w).toNat := by
    rw [BitVec.toNat_setWidth_of_le hw, divisor_eq]
  simp only [divide, if_neg hd]
  rw [hext, operand_eq, ← BitVec.toNat_udiv, ← BitVec.toNat_umod, zext128_toNat, BitVec.ofNat_toNat]

/-- A dividend is the quotient times the divisor plus the remainder, which is below the divisor
(40_wideint.md R111); neither is cut on its way to R and REM. -/
theorem quotient_mul_add_remainder {w : Nat} (hlo : 16 ≤ w) (hhi : w ≤ 128) (x : BitVec w)
    {d : BitVec 16} (hd : d ≠ 0) :
    ((x / d.setWidth w).setWidth 128).toNat * d.toNat + ((x % d.setWidth w).setWidth 16).toNat = x.toNat
      ∧ ((x % d.setWidth w).setWidth 16).toNat < d.toNat := by
  have hpos : 0 < d.toNat := Nat.pos_of_ne_zero fun h0 => hd (BitVec.eq_of_toNat_eq h0)
  have hrem : x.toNat % d.toNat < d.toNat := Nat.mod_lt _ hpos
  have hq : ((x / d.setWidth w).setWidth 128).toNat = x.toNat / d.toNat := by
    rw [BitVec.toNat_setWidth_of_le hhi, BitVec.toNat_udiv, BitVec.toNat_setWidth_of_le hlo]
  have hr : ((x % d.setWidth w).setWidth 16).toNat = x.toNat % d.toNat := by
    rw [BitVec.toNat_setWidth, BitVec.toNat_umod, BitVec.toNat_setWidth_of_le hlo,
      Nat.mod_eq_of_lt (hrem.trans d.isLt)]
  rw [hq, hr]
  exact ⟨Nat.div_add_mod' _ _, hrem⟩

/-! ## 64-bit forms (40_wideint.md R100) -/

/-- A 64-bit WIDE command other than DIV writes to R a function of A[63:0] and B[63:0]. -/
theorem exec_narrow {i : Instr} (hw : i.op.isWide = true) (h64 : i.w = false) (hd : i.op ≠ .div) :
    ∃ f : BitVec 64 → BitVec 64 → BitVec 64, ∀ s, exec i s
      = .next { s with r := (f (s.a.setWidth 64) (s.b.setWidth 64)).setWidth 128, err := 0 } := by
  cases i with
  | add64 => exact ⟨(· + ·), fun s => wide_eq (addMod_operand 64 s.a s.b) s⟩
  | sub64 => exact ⟨(· - ·), fun s => wide_eq (subMod_operand 64 s.a s.b) s⟩
  | mul64 => exact ⟨(· * ·), fun s => wide_eq (mulMod_operand 64 s.a s.b) s⟩
  | shl64 n => exact ⟨fun x _ => x <<< n.toNat, fun s => wide_eq (shlMod_operand 64 s.a n.toNat) s⟩
  | shr64 n => exact ⟨fun x _ => x >>> n.toNat, fun s => wide_eq (shrDiv_operand 64 s.a n.toNat) s⟩
  | and64 => exact ⟨(· &&& ·), fun s => wide_eq (operand_and_operand 64 s.a s.b) s⟩
  | or64 => exact ⟨(· ||| ·), fun s => wide_eq (operand_or_operand 64 s.a s.b) s⟩
  | xor64 => exact ⟨(· ^^^ ·), fun s => wide_eq (operand_xor_operand 64 s.a s.b) s⟩
  | div64 => exact absurd rfl hd
  | add128 | sub128 | mul128 | div128 | shl128 | shr128 | and128 | or128 | xor128 => cases h64
  | nop | vlenc | vldec | b59enc | b59dec | clrerr => cases hw

/-- The 64-bit form of DIV is DIV.64. -/
theorem eq_div64 {i : Instr} (hd : i.op = .div) (h64 : i.w = false) : i = .div64 := by
  rw [← assemble_fields i, hd, h64]
  rfl

/-- A zero-extended 64-bit result leaves R[127:64] zero. -/
theorem toNat_setWidth_narrow_lt (v : BitVec 64) : (v.setWidth 128).toNat < 2 ^ 64 := by
  rw [BitVec.toNat_setWidth_of_le (by decide)]
  exact v.isLt

end Sys2Proof.Machine
end

section
/-! PROOF. The statements of 40_wideint.md: the effect of each command from the laws of the WIDE unit,
and the laws of R100 and R111 from the effects. -/

namespace Sys2Proof.Machine

/-! ## The effect of each command -/

/-- Settles O20. -/
theorem addWritesTheWrappedSum : Obligations.AddWritesTheWrappedSum := by
  refine ⟨rfl, rfl, fun s => ⟨wide_eq (addMod_operand 64 s.a s.b) s, ?_⟩⟩
  exact (wide_eq (addMod_operand 128 s.a s.b) s).trans (by simp only [BitVec.setWidth_eq])

/-- Settles O21. -/
theorem subWritesTheWrappedDifference : Obligations.SubWritesTheWrappedDifference := by
  refine ⟨rfl, rfl, fun s => ⟨wide_eq (subMod_operand 64 s.a s.b) s, ?_⟩⟩
  exact (wide_eq (subMod_operand 128 s.a s.b) s).trans (by simp only [BitVec.setWidth_eq])

/-- Settles O22. -/
theorem mulWritesTheLowHalf : Obligations.MulWritesTheLowHalf := by
  refine ⟨rfl, rfl, fun s => ⟨wide_eq (mulMod_operand 64 s.a s.b) s, ?_⟩⟩
  exact (wide_eq (mulMod_operand 128 s.a s.b) s).trans (by simp only [BitVec.setWidth_eq])

/-- Settles O23, by the divisor B[15:0]. -/
theorem divWritesQuotientAndRemainder : Obligations.DivWritesQuotientAndRemainder := by
  refine ⟨rfl, rfl, fun s => ⟨fun hd => ⟨?_, ?_⟩, fun hd => ⟨?_, ?_⟩⟩⟩
  · exact congrArg (finish s) (divide_of_divisor_ne_zero (by decide) hd)
  · exact (congrArg (finish s) (divide_of_divisor_ne_zero (by decide) hd)).trans
      (by rw [BitVec.setWidth_eq, BitVec.setWidth_eq]; rfl)
  · exact congrArg (finish s) (divide_of_divisor_zero 64 hd)
  · exact congrArg (finish s) (divide_of_divisor_zero 128 hd)

/-- A command word is OP and W, with SHAMT from bit 8 up (30_encoding.md R77). -/
theorem encode_eq_or (op : Op) (w : Bool) {i : Instr} {c : Word} (hop : i.op = op) (hw : i.w = w)
    (hc : op.code.setWidth 32 ||| ((BitVec.ofBool w).setWidth 32 <<< 6) = c) :
    encode i = (c ||| (i.shamt.setWidth 32 <<< 8)) := by
  rw [encode, hop, hw, hc]

/-- Settles O24. -/
theorem shlShiftsLeftWithoutReducing : Obligations.ShlShiftsLeftWithoutReducing := by
  refine fun n => ⟨encode_eq_or .shl false rfl rfl (by decide),
    encode_eq_or .shl true rfl rfl (by decide),
    fun s => ⟨wide_eq (shlMod_operand 64 s.a n.toNat) s, ?_⟩⟩
  exact (wide_eq (shlMod_operand 128 s.a n.toNat) s).trans (by simp only [BitVec.setWidth_eq])

/-- Settles O25. -/
theorem shrShiftsRightWithZeros : Obligations.ShrShiftsRightWithZeros := by
  refine fun n => ⟨encode_eq_or .shr false rfl rfl (by decide),
    encode_eq_or .shr true rfl rfl (by decide),
    fun s => ⟨wide_eq (shrDiv_operand 64 s.a n.toNat) s, ?_⟩⟩
  exact (wide_eq (shrDiv_operand 128 s.a n.toNat) s).trans (by simp only [BitVec.setWidth_eq])

/-- Settles O26. -/
theorem bitwiseCommandsWriteTheirResult : Obligations.BitwiseCommandsWriteTheirResult := by
  refine ⟨rfl, rfl, rfl, rfl, rfl, rfl, fun s => ⟨?_, ?_, ?_, ?_, ?_, ?_⟩⟩
  · exact wide_eq (operand_and_operand 64 s.a s.b) s
  · exact (wide_eq (operand_and_operand 128 s.a s.b) s).trans (by simp only [BitVec.setWidth_eq])
  · exact wide_eq (operand_or_operand 64 s.a s.b) s
  · exact (wide_eq (operand_or_operand 128 s.a s.b) s).trans (by simp only [BitVec.setWidth_eq])
  · exact wide_eq (operand_xor_operand 64 s.a s.b) s
  · exact (wide_eq (operand_xor_operand 128 s.a s.b) s).trans (by simp only [BitVec.setWidth_eq])

/-! ## The laws of the unit (40_wideint.md R100, R111) -/

/-- B[15:0] lies in B[63:0]. -/
theorem divisor_bits_congr {b b' : Wide} (h : b'.setWidth 64 = b.setWidth 64) :
    b'.setWidth 16 = b.setWidth 16 := by
  simpa only [BitVec.setWidth_setWidth_of_le _ (by decide : 16 ≤ 64)]
    using congrArg (BitVec.setWidth 16) h

/-- Settles O27: DIV.64 by its divisor, every other 64-bit command by its function of the lower
halves. -/
theorem narrowFormsIgnoreUpperHalves : Obligations.NarrowFormsIgnoreUpperHalves := by
  intro i s t a' b' hw h64 ha hb h
  by_cases hd : i.op = .div
  · obtain rfl := eq_div64 hd h64
    obtain ⟨-, -, hdiv⟩ := divWritesQuotientAndRemainder
    have hb16 := divisor_bits_congr hb
    by_cases hzero : s.b.setWidth 16 = 0
    · rw [((hdiv s).2 hzero).1] at h
      cases h
      exact ⟨((hdiv { s with a := a', b := b' }).2 (hb16.trans hzero)).1, fun he =>
        absurd he (raise_code_le .divideByZero).2⟩
    · rw [((hdiv s).1 hzero).1] at h
      cases h
      refine ⟨?_, fun _ => toNat_setWidth_narrow_lt _⟩
      rw [((hdiv { s with a := a', b := b' }).1 (hb16 ▸ hzero)).1, ha, hb16]
  · obtain ⟨f, hf⟩ := exec_narrow hw h64 hd
    rw [hf] at h
    cases h
    refine ⟨?_, fun _ => toNat_setWidth_narrow_lt _⟩
    rw [hf, ha, hb]

/-- Settles O28: cutting the zero-extended sum gives the sum back. -/
theorem subUndoesAdd : Obligations.SubUndoesAdd := by
  obtain ⟨-, -, hadd⟩ := addWritesTheWrappedSum
  obtain ⟨-, -, hsub⟩ := subWritesTheWrappedDifference
  intro s t u
  rw [(hadd s).1, (hadd s).2]
  constructor <;> rintro ⟨⟩
  · rw [(hsub _).1]
    rintro ⟨⟩
    simp only [BitVec.setWidth_setWidth_of_le _ (by decide : 64 ≤ 128), BitVec.setWidth_eq,
      BitVec.add_sub_cancel]
  · rw [(hsub _).2]
    rintro ⟨⟩
    exact BitVec.add_sub_cancel s.a s.b

/-- Settles O29: a DIV that ends with ERR = 0 had a non-zero divisor. -/
theorem divisionIdentity : Obligations.DivisionIdentity := by
  obtain ⟨-, -, hdiv⟩ := divWritesQuotientAndRemainder
  intro s t
  by_cases hzero : s.b.setWidth 16 = 0
  · obtain ⟨h64, h128⟩ := (hdiv s).2 hzero
    rw [h64, h128]
    constructor <;> rintro ⟨⟩ he <;> exact absurd he (raise_code_le .divideByZero).2
  · obtain ⟨h64, h128⟩ := (hdiv s).1 hzero
    rw [h64, h128]
    constructor <;> rintro ⟨⟩ -
    · exact quotient_mul_add_remainder (by decide) (by decide) (s.a.setWidth 64) hzero
    · simpa only [BitVec.setWidth_eq]
        using quotient_mul_add_remainder (by decide) le_rfl s.a hzero

theorem twoPow_ne_zero {n : Nat} (hn : n ≤ 15) : BitVec.twoPow 16 n ≠ 0 := fun h => by
  have hpow := congrArg BitVec.toNat h
  rw [BitVec.toNat_twoPow_of_lt (by omega)] at hpow
  exact absurd hpow (Nat.two_pow_pos n).ne'

/-- Dividing by a 16-bit power of 2 is shifting right, at every width that holds the divisor. -/
theorem udiv_setWidth_twoPow {w n : Nat} (hw : 16 ≤ w) (hn : n ≤ 15) (x : BitVec w) :
    x / (BitVec.twoPow 16 n).setWidth w = x >>> n := by
  have hpow : (BitVec.twoPow 16 n).setWidth w = BitVec.twoPow w n := BitVec.eq_of_toNat_eq (by
    rw [BitVec.toNat_setWidth_of_le hw, BitVec.toNat_twoPow_of_lt (by omega),
      BitVec.toNat_twoPow_of_lt (by omega)])
  rw [hpow, BitVec.udiv_twoPow_eq_of_lt (by omega)]

/-- Settles O30: a power of 2 multiplies as SHL and divides as SHR, and a 64-bit word shifted by 64 or
more is 0. -/
theorem shiftsAgreeWithMulAndDiv : Obligations.ShiftsAgreeWithMulAndDiv := by
  obtain ⟨-, -, hmul⟩ := mulWritesTheLowHalf
  obtain ⟨-, -, hdiv⟩ := divWritesQuotientAndRemainder
  refine ⟨fun s t u n => ?_, fun s n hn => ?_⟩
  · obtain ⟨-, -, hshl⟩ := shlShiftsLeftWithoutReducing n
    obtain ⟨-, -, hshr⟩ := shrShiftsRightWithZeros n
    rw [(hmul s).1, (hmul s).2, (hshl s).1, (hshl s).2, (hshr s).1, (hshr s).2]
    refine ⟨fun _ hb => ?_, fun hb => ?_, fun hn hb => ?_⟩
    · rw [hb, BitVec.mul_twoPow_eq_shiftLeft]
      rintro ⟨⟩ ⟨⟩
      rfl
    · rintro ⟨⟩ ⟨⟩
      exact (congrArg (s.a * ·) hb).trans (BitVec.mul_twoPow_eq_shiftLeft s.a n.toNat)
    · obtain ⟨h64, h128⟩ := (hdiv s).1 (hb ▸ twoPow_ne_zero hn)
      rw [h64, h128, hb, udiv_setWidth_twoPow (by decide) hn, udiv_setWidth_twoPow (by decide) hn]
      constructor <;> rintro ⟨⟩ ⟨⟩ <;> rfl
  · obtain ⟨-, -, hshl⟩ := shlShiftsLeftWithoutReducing n
    obtain ⟨-, -, hshr⟩ := shrShiftsRightWithZeros n
    rw [(hshl s).1, (hshr s).1, BitVec.shiftLeft_eq_zero hn, BitVec.ushiftRight_eq_zero hn]
    exact ⟨rfl, rfl⟩

end Sys2Proof.Machine
end

section
/-! PROOF. The VLC unit (41_varlen.md): which lengths the encoder accepts, what it finds first, how a
merged pattern is cleared again, and the ends of VLENC and VLDEC. -/

namespace Sys2Proof.Machine

/-! ## Accepted lengths (41_varlen.md R125) -/

theorem VlFits.recordAt?_eq {table : List VlRow} {M L : Nat} {raw : Byte} {rest : List Byte}
    {c : VlCell} (h : VlFits table M L raw rest c) :
    recordAt? table M L = some ((raw ||| c.pattern) :: rest) := by
  obtain ⟨hbytes, hcell, hfree, c', hhead, hmask⟩ := h
  simp [recordAt?, hbytes, hcell, hfree, hhead, hmask]

theorem recordAt?_some {table : List VlRow} {M L : Nat} {record : List Byte}
    (h : recordAt? table M L = some record) :
    ∃ raw rest c, VlFits table M L raw rest c ∧ record = (raw ||| c.pattern) :: rest := by
  simp only [recordAt?] at h
  split at h
  · cases h
  next raw rest hbytes =>
    split at h
    · cases h
    next c hcell =>
      split at h
      · cases h
      next L' c' hhead =>
        split at h
        next hfits =>
          obtain ⟨hfree, rfl, hmask⟩ := hfits
          cases h
          exact ⟨raw, rest, c, ⟨hbytes, hcell, hfree, c', hhead, hmask⟩, rfl⟩
        · cases h

theorem recordAt?_eq_none_iff {table : List VlRow} {M L : Nat} :
    recordAt? table M L = none ↔ ∀ raw rest c, ¬ VlFits table M L raw rest c := by
  constructor
  · intro h raw rest c hfits
    rw [hfits.recordAt?_eq] at h
    cases h
  · refine fun h => Option.eq_none_iff_forall_ne_some.2 fun record hrecord => ?_
    obtain ⟨raw, rest, c, hfits, -⟩ := recordAt?_some hrecord
    exact h raw rest c hfits

/-- The encoder finds no record exactly when no candidate length is accepted. -/
theorem vlEncode?_eq_none_iff {table : List VlRow} {M : Nat} :
    vlEncode? table M = none
      ↔ ∀ L, 4 ≤ L → byteLen M ≤ L → L ≤ 16 → ∀ raw rest c, ¬ VlFits table M L raw rest c := by
  simp only [vlEncode?, List.findSome?_eq_none_iff, mem_tryLengths, recordAt?_eq_none_iff, and_imp]

/-- The encoder finds the record of the least accepted length: the candidates rise (41_varlen.md
R128). -/
theorem vlEncode?_of_least {table : List VlRow} {M L : Nat} {raw : Byte} {rest : List Byte}
    {c : VlCell} (hL : L ∈ tryLengths M) (hfits : VlFits table M L raw rest c)
    (hleast : ∀ L', 4 ≤ L' → byteLen M ≤ L' → L' < L →
      ∀ raw' rest' c', ¬ VlFits table M L' raw' rest' c') :
    vlEncode? table M = some ((raw ||| c.pattern) :: rest) := by
  obtain ⟨before, after, hsplit⟩ := List.append_of_mem hL
  have hrises : (tryLengths M).Pairwise (· < ·) := List.pairwise_lt_range' 1
  rw [hsplit, List.pairwise_append] at hrises
  obtain ⟨-, -, hbefore⟩ := hrises
  refine List.findSome?_eq_some_iff.2
    ⟨before, L, after, hsplit, hfits.recordAt?_eq, fun L' hL' => recordAt?_eq_none_iff.2 ?_⟩
  obtain ⟨hlo, hbytes, -⟩ := mem_tryLengths.1 (hsplit ▸ List.mem_append_left _ hL')
  exact hleast L' hlo hbytes (hbefore L' hL' L List.mem_cons_self)

/-! ## Clearing a merged pattern (41_varlen.md R124) -/

/-- WF1 puts the pattern of every cell inside its mask (41_varlen.md R122). -/
theorem inside_of_vlCell? {cfg : Config} (hwf1 : cfg.wf1 = true) {L : Nat} {q : Bool} {c : VlCell}
    (h : vlCell? cfg.vlTable L q = some c) : c.pattern &&& ~~~c.mask = 0 := by
  simp only [vlCell?] at h
  split at h
  · cases h
  obtain ⟨row, hrow, rfl⟩ := Option.map_eq_some_iff.1 h
  have hcells := List.all_eq_true.1 hwf1 row (List.mem_of_getElem? hrow)
  simp only [Bool.and_eq_true, VlCell.inside, beq_iff_eq] at hcells
  cases q
  · exact hcells.1
  · exact hcells.2

/-- A pattern inside the mask, merged into a byte that is free there, is cleared by the mask. -/
theorem merged_and_not_mask {raw pattern mask : Byte} (hfree : raw &&& mask = 0)
    (hinside : pattern &&& ~~~mask = 0) : (raw ||| pattern) &&& ~~~mask = raw := by
  ext i hi
  have hraw := congrArg (·[i]) hfree
  have hpat := congrArg (·[i]) hinside
  simp only [BitVec.getElem_and, BitVec.getElem_not, BitVec.getElem_or, BitVec.ofNat_eq_ofNat,
    BitVec.getElem_zero] at hraw hpat ⊢
  cases hmask : mask[i] <;> simp_all

/-- A record of at most 16 bytes carries a meat that R holds. -/
theorem zext128_valBE_toNat {bytes : List Byte} (h : bytes.length ≤ 16) :
    (zext128 (valBE bytes)).toNat = valBE bytes := by
  have hlt : valBE bytes < 256 ^ 16 :=
    (valBE_lt bytes).trans_le (Nat.pow_le_pow_right (by decide) h)
  exact Nat.mod_eq_of_lt hlt

/-- The record's meat, under the mask of its own cell, is the meat encoded (41_varlen.md R127). -/
theorem VlFits.strip_eq {cfg : Config} (hwf1 : cfg.wf1 = true) {M L : Nat} {raw : Byte}
    {rest : List Byte} {c : VlCell} (h : VlFits cfg.vlTable M L raw rest c) (hM : byteLen M ≤ L) :
    strip ((raw ||| c.pattern) :: rest) c.mask = M := by
  obtain ⟨hbytes, hcell, hfree, -⟩ := h
  rw [strip, merged_and_not_mask hfree (inside_of_vlCell? hwf1 hcell), ← hbytes,
    valBE_beBytes ((byteLen_le_iff M L).1 hM)]

/-! ## The bytes of IBUF -/

theorem ibufBytes_eq_cons (s : State) {L : Nat} (hL : 0 < L) :
    s.ibufBytes L = s.ibufByte 0 :: (s.ibufBytes L).tail := by
  obtain ⟨n, rfl⟩ := Nat.exists_eq_succ_of_ne_zero hL.ne'
  simp only [State.ibufBytes, List.range_succ_eq_map, List.map_cons, List.tail_cons]

/-- IBUF[0 .. L-1] is a string of L bytes that IBUF reads as. -/
theorem ibufBytes_eq {s : State} {bytes : List Byte}
    (h : ∀ i < bytes.length, s.ibufByte i = bytes.getD i 0) : s.ibufBytes bytes.length = bytes := by
  refine List.ext_getElem (by simp [State.ibufBytes]) fun i _ hi => ?_
  simp only [State.ibufBytes, List.getElem_map, List.getElem_range]
  rw [h i hi, List.getD_eq_getElem _ _ hi]

/-! ## The ends of VLENC -/

theorem exec_vlenc_of_some {s : State} {record : List Byte}
    (h : vlEncode? s.cfg.vlTable s.a.toNat = some record) :
    exec .vlenc s = .next (succeed (produce record s)) :=
  congrArg (finish s) (show vlEncode s = .ok (produce record s) by simp only [vlEncode, h])

theorem exec_vlenc_of_none {s : State} (h : vlEncode? s.cfg.vlTable s.a.toNat = none) :
    exec .vlenc s = .next (raiseErr .oversizedInput s) :=
  congrArg (finish s) (show vlEncode s = .error .oversizedInput by simp only [vlEncode, h])

/-- VLENC ends with ERR = 0 where the encoder finds a record, and with OversizedInput where not. -/
theorem exec_vlenc_err {s t : State} (h : exec .vlenc s = .next t) :
    (t.err = 0x07 ↔ vlEncode? s.cfg.vlTable s.a.toNat = none)
      ∧ (t.err = 0 ↔ vlEncode? s.cfg.vlTable s.a.toNat ≠ none) := by
  rcases hr : vlEncode? s.cfg.vlTable s.a.toNat with _ | record
  · rw [exec_vlenc_of_none hr] at h
    cases h
    exact ⟨iff_of_true rfl rfl, iff_of_false (raise_code_le .oversizedInput).2 (· rfl)⟩
  · rw [exec_vlenc_of_some hr] at h
    cases h
    exact ⟨iff_of_false (by rw [succeed_err]; decide) nofun, iff_of_true rfl nofun⟩

/-- A VLENC that ends with ERR = 0 wrote the record of an accepted length. -/
theorem exec_vlenc_ok {s t : State} (h : exec .vlenc s = .next t) (herr : t.err = 0) :
    ∃ L ∈ tryLengths s.a.toNat, ∃ raw rest c, VlFits s.cfg.vlTable s.a.toNat L raw rest c
      ∧ t = succeed (produce ((raw ||| c.pattern) :: rest) s) := by
  obtain ⟨record, hrecord⟩ := Option.ne_none_iff_exists'.1 ((exec_vlenc_err h).2.1 herr)
  obtain ⟨L, hL, hat⟩ := vlEncode?_some hrecord
  obtain ⟨raw, rest, c, hfits, rfl⟩ := recordAt?_some hat
  rw [exec_vlenc_of_some hrecord] at h
  cases h
  exact ⟨L, hL, raw, rest, c, hfits, rfl⟩

/-! ## The ends of VLDEC -/

section
variable {s : State} (hle : s.ilen.toNat ≤ bufBytes) (hpos : s.ilen.toNat ≠ 0)

theorem vlDecode_empty (h : s.ilen = 0) : vlDecode s = .error .truncatedRecord := by
  simp [vlDecode, h]

include hle hpos

theorem vlDecode_unmatched (h : vlheader s.cfg.vlTable (s.ibufByte 0) = none) :
    vlDecode s = .error .invalidPrefix := by
  simp only [vlDecode, gt_iff_lt, if_neg (Nat.not_lt.2 hle), if_neg hpos, h]

theorem vlDecode_truncated {L : Nat} {c : VlCell}
    (h : vlheader s.cfg.vlTable (s.ibufByte 0) = some (L, c)) (hL : s.ilen.toNat < L) :
    vlDecode s = .error .truncatedRecord := by
  simp only [vlDecode, gt_iff_lt, if_neg (Nat.not_lt.2 hle), if_neg hpos, h, if_pos hL]

theorem vlDecode_complete {L : Nat} {c : VlCell}
    (h : vlheader s.cfg.vlTable (s.ibufByte 0) = some (L, c)) (hL : L ≤ s.ilen.toNat) :
    vlDecode s
      = .ok { s with r := zext128 (strip (s.ibufBytes L) c.mask), clen := BitVec.ofNat 7 L } := by
  simp only [vlDecode, gt_iff_lt, if_neg (Nat.not_lt.2 hle), if_neg hpos, h,
    if_neg (Nat.not_lt.2 hL)]

end

/-- VLDEC of the record of an accepted length, with any tail: the encoder accepted the length because
the header match of the merged byte names it (41_varlen.md R127). -/
theorem vlDecode_of_fits {u : State} {M L : Nat} {raw : Byte} {rest : List Byte} {c : VlCell}
    (hwf1 : u.cfg.wf1 = true) (hfits : VlFits u.cfg.vlTable M L raw rest c) (hL : L ∈ tryLengths M)
    (hbytes : ∀ i < L, u.ibufByte i = ((raw ||| c.pattern) :: rest).getD i 0)
    (hlen : L ≤ u.ilen.toNat) (hle : u.ilen.toNat ≤ bufBytes) :
    vlDecode u = .ok { u with r := zext128 M, clen := BitVec.ofNat 7 L } := by
  obtain ⟨hlo, hM, -⟩ := mem_tryLengths.1 hL
  have hlength : ((raw ||| c.pattern) :: rest).length = L := recordAt?_length hfits.recordAt?_eq
  have hread : u.ibufBytes L = (raw ||| c.pattern) :: rest := by
    rw [← hlength] at hbytes ⊢
    exact ibufBytes_eq hbytes
  have ⟨_, _, _, c', hhead, hmask⟩ := hfits
  have hfirst : u.ibufByte 0 = raw ||| c.pattern := hbytes 0 (by omega)
  rw [vlDecode_complete hle (by omega) (hfirst ▸ hhead) hlen, hread, hmask, hfits.strip_eq hwf1 hM]

/-! ## The default table (41_varlen.md R123) -/

/-- In column 0 of T_cand the pattern of every length heads a record of that length. -/
theorem tCand_pattern_heads :
    ∀ L < 17, 4 ≤ L → ∃ c ∈ tCand.map VlRow.q0,
      vlCell? tCand L false = some c ∧ vlheader tCand c.pattern = some (L, c) := by
  decide

/-- Under T_cand a length whose raw leading byte is 0 is accepted. -/
theorem vlFits_tCand {M n : Nat} (hlo : 3 ≤ n) (hhi : n ≤ 15) (hM : M < 256 ^ n) :
    ∃ rest c, VlFits tCand M (n + 1) 0 rest c := by
  obtain ⟨c, -, hcell, hhead⟩ := tCand_pattern_heads (n + 1) (by omega) (by omega)
  refine ⟨beBytes n M, c, ?_, hcell, BitVec.zero_and, c, ?_, rfl⟩
  · rw [beBytes, Nat.div_eq_of_lt hM]
    rfl
  · rwa [BitVec.ofNat_eq_ofNat, BitVec.zero_or]

/-- Under T_cand length 16 leaves no bit of the raw leading byte free. -/
theorem tCand_longest_free :
    ∀ raw : Byte, ∀ c ∈ vlCell? tCand 16 (modeQ raw), raw &&& c.mask = 0 → raw = 0 := by
  decide

/-- Under T_cand a meat finds no record exactly when it is 2^120 or more: below that, the length after
the shortest that holds it is accepted at the latest. -/
theorem vlEncode?_tCand_eq_none_iff {M : Nat} (hM : M < 2 ^ 128) :
    vlEncode? tCand M = none ↔ 2 ^ 120 ≤ M := by
  rw [vlEncode?_eq_none_iff]
  constructor
  · intro h
    by_contra hlt
    have hbytes : byteLen M ≤ 15 := (byteLen_le_iff M 15).2 (Nat.not_le.1 hlt)
    obtain ⟨rest, c, hfits⟩ := vlFits_tCand (n := max 4 (byteLen M)) (by omega) (by omega)
      ((byteLen_le_iff M _).1 (le_max_right _ _))
    exact h _ (by omega) (by omega) (by omega) 0 rest c hfits
  · rintro hge L - hbytes hhi raw rest c ⟨hbe, hcell, hfree, -⟩
    have hL : L = 16 := by
      by_contra hne
      exact absurd ((byteLen_le_iff M 15).1 (by omega)) (Nat.not_lt.2 hge)
    subst hL
    have hraw : BitVec.ofNat 8 (M / 256 ^ 15) = raw := (List.cons.inj hbe).1
    have hzero : M / 256 ^ 15 % 2 ^ 8 = 0 :=
      congrArg BitVec.toNat (hraw.trans (tCand_longest_free raw c hcell hfree))
    omega

end Sys2Proof.Machine
end

section
/-! PROOF. The statements of 41_varlen.md and of the default parameters: each settled from the laws of
the VLC unit. -/

namespace Sys2Proof.Machine

/-! ## VLENC -/

/-- Settles O32: the least accepted length is the first candidate that succeeds. -/
theorem vlencWritesTheShortestAcceptedRecord : Obligations.VlencWritesTheShortestAcceptedRecord := by
  intro s L raw rest c hlo hbytes hhi hfits hleast
  have hrecord := vlEncode?_of_least (mem_tryLengths.2 ⟨hlo, hbytes, hhi⟩) hfits hleast
  have hlen : ((raw ||| c.pattern) :: rest).length = L := recordAt?_length hfits.recordAt?_eq
  refine ⟨_, exec_vlenc_of_some hrecord, ?_, ?_, ?_, fun _ => rfl⟩
  · simp only [produce, hlen, succeed]
  · exact fun i hi => produce_obufByte _ s (by simp only [hlen, bufBytes]; omega) i hi
  · intro i hi
    have hpad := padded_length ((raw ||| c.pattern) :: rest) (by simp only [hlen, bufBytes]; omega)
    simp only [State.obufByte, succeed_obuf, succeed_draws, produce_obuf, produce_draws]
    rw [Memory.byte?_putFrom_outside _ _ _ _ (.inr (by simp only [hpad, bufBytes]; omega))]

/-- Settles O33. -/
theorem vlencRaisesWhenNoLengthIsAccepted : Obligations.VlencRaisesWhenNoLengthIsAccepted :=
  fun _ hnone => exec_vlenc_of_none (vlEncode?_eq_none_iff.2 hnone)

/-- Settles O34. -/
theorem defaultTableCarriesMeatsBelowTwoTo120 : Obligations.DefaultTableCarriesMeatsBelowTwoTo120 := by
  intro s t htable h
  have herr := exec_vlenc_err h
  rwa [htable, ne_eq, vlEncode?_tCand_eq_none_iff s.a.isLt, Nat.not_le] at herr

/-! ## VLDEC -/

/-- Settles O35: in a well-formed block a record has 4 to 16 bytes, so neither R nor CLEN cuts it. -/
theorem vldecDecodesACompleteRecord : Obligations.VldecDecodesACompleteRecord := by
  intro s L c hwf hle hne hhead hL
  obtain ⟨hlo, hhi, -, -⟩ := vlheader_some hhead
  rw [(wf_parts hwf).1, lMin] at hhi
  have hpos := BitVec.toNat_ne_iff_ne.2 hne
  refine ⟨_, congrArg (finish s) (vlDecode_complete hle hpos hhead hL), rfl, ?_⟩
  change (zext128 (strip (s.ibufBytes L) c.mask)).toNat = _
  rw [ibufBytes_eq_cons s (Nat.lt_of_lt_of_le (by decide) hlo)]
  exact zext128_valBE_toNat (by simp [State.ibufBytes]; omega)

/-- Settles O36: one check of R126 after the other. -/
theorem vldecErrorsInOrder : Obligations.VldecErrorsInOrder := by
  refine fun s => ⟨fun hbig => ?_, fun hzero => ?_, fun hle hne => ⟨fun hnone => ?_,
    fun L c hhead hL => ?_⟩⟩
  · exact congrArg (finish s) (vlDecode_oversized hbig)
  · exact congrArg (finish s) (vlDecode_empty hzero)
  · exact congrArg (finish s) (vlDecode_unmatched hle (BitVec.toNat_ne_iff_ne.2 hne) hnone)
  · exact congrArg (finish s) (vlDecode_truncated hle (BitVec.toNat_ne_iff_ne.2 hne) hhead hL)

/-- Settles O37: VLENC wrote the record of an accepted length, which VLDEC decodes. -/
theorem vldecUndoesVlenc : Obligations.VldecUndoesVlenc := by
  intro s t u hwf1 hexec herr hcfg hbytes hlen hle
  obtain ⟨L, hL, raw, rest, c, hfits, rfl⟩ := exec_vlenc_ok hexec herr
  obtain ⟨-, -, hhi⟩ := mem_tryLengths.1 hL
  have hlength : ((raw ||| c.pattern) :: rest).length = L := recordAt?_length hfits.recordAt?_eq
  have holen : (BitVec.ofNat 7 L).toNat = L := Nat.mod_eq_of_lt (by omega)
  simp only [succeed_olen, produce_olen, hlength, holen] at hbytes hlen ⊢
  have hread : ∀ i < L, u.ibufByte i = ((raw ||| c.pattern) :: rest).getD i 0 := fun i hi =>
    (hbytes i hi).trans (produce_obufByte _ s (by simp only [hlength, bufBytes]; omega) i
      (by simp only [bufBytes]; omega))
  have hdec := vlDecode_of_fits (hcfg ▸ hwf1) (hcfg ▸ hfits) hL hread hlen hle
  rw [zext128_toNat, BitVec.setWidth_eq] at hdec
  exact congrArg (finish u) hdec

/-! ## The default parameters -/

/-- Settles O38, by enumeration of the 256 bytes (41_varlen.md R123). -/
theorem defaultTableLeavesTwoBytesUnmatched : Obligations.DefaultTableLeavesTwoBytesUnmatched := by
  unfold Obligations.DefaultTableLeavesTwoBytesUnmatched
  decide

/-- Settles O58: the invariant of the reset state holds the checks of the default parameters. -/
theorem defaultParametersAreWellFormed : Obligations.DefaultParametersAreWellFormed :=
  resetStateMeetsTheInvariant.cfgWf

end Sys2Proof.Machine
end

section
/-! PROOF. The B59 unit (42_base59.md): the text of a byte string as digits and characters, the
checksum as a condition on the whole digit string, and the ends of B59ENC and B59DEC. -/

namespace Sys2Proof.Machine

/-! ## The bytes of a buffer -/

@[simp] theorem ibufBytes_length (s : State) (n : Nat) : (s.ibufBytes n).length = n := by
  simp [State.ibufBytes]

@[simp] theorem ibufBytes_getElem (s : State) {n i : Nat} (h : i < (s.ibufBytes n).length) :
    (s.ibufBytes n)[i] = s.ibufByte i := by
  simp [State.ibufBytes]

/-- What a successful producing command leaves: its output with zeros behind it, its length, and
everything but OBUF, OLEN and ERR as before (10_state.md R33, R36). -/
theorem succeed_produce_effect {out : List Byte} (hout : out.length ≤ bufBytes) (s : State) :
    succeed (produce out s) = { s with
        obuf := (succeed (produce out s)).obuf, olen := BitVec.ofNat 7 out.length, err := 0 }
      ∧ (∀ i < 64, (succeed (produce out s)).obufByte i = out.getD i 0)
      ∧ (∀ i, 64 ≤ i → (succeed (produce out s)).obufByte i = s.obufByte i)
      ∧ ∀ i, (succeed (produce out s)).ibufByte i = s.ibufByte i := by
  refine ⟨rfl, produce_obufByte out s hout, fun i hi => ?_, fun _ => rfl⟩
  have hpad := padded_length out hout
  simp only [State.obufByte, succeed_obuf, succeed_draws, produce_obuf, produce_draws]
  rw [Memory.byte?_putFrom_outside _ _ _ _ (.inr (by simpa [hpad, bufBytes] using hi))]

/-- IBUF and ILEN that hold what a producing command left in OBUF and OLEN hold its output. -/
theorem ibufBytes_of_output {s u : State} {out : List Byte} (hout : out.length ≤ bufBytes)
    (hilen : u.ilen = (succeed (produce out s)).olen)
    (hbytes : ∀ i < (succeed (produce out s)).olen.toNat,
      u.ibufByte i = (succeed (produce out s)).obufByte i) :
    u.ilen.toNat = out.length ∧ u.ibufBytes u.ilen.toNat = out := by
  have holen : (succeed (produce out s)).olen.toNat = out.length :=
    Nat.mod_eq_of_lt (Nat.lt_of_le_of_lt hout (by decide))
  rw [holen] at hbytes
  rw [hilen, holen]
  exact ⟨rfl, ibufBytes_eq fun i hi =>
    (hbytes i hi).trans (produce_obufByte out s hout i (Nat.lt_of_lt_of_le hi hout))⟩

/-- A producing command whose output is another state's IBUF[0 .. ILEN-1] leaves that string. -/
theorem obuf_of_ibufBytes {s : State} (hle : s.ilen.toNat ≤ bufBytes) (u : State) :
    (succeed (produce (s.ibufBytes s.ilen.toNat) u)).olen = s.ilen
      ∧ ∀ i < s.ilen.toNat,
        (succeed (produce (s.ibufBytes s.ilen.toNat) u)).obufByte i = s.ibufByte i := by
  refine ⟨by simp, fun i hi => ?_⟩
  refine (produce_obufByte _ u (by simpa using hle) i (Nat.lt_of_lt_of_le hi hle)).trans ?_
  rw [List.getD_eq_getElem _ _ (by simpa using hi), ibufBytes_getElem]

/-! ## The text of a byte string (42_base59.md R142-R145) -/

/-- The text is one map of characters over the digits and their checksum digit. -/
theorem b59text_eq_map (c : Config) (str : List Byte) :
    b59text c str = (b59digits str ++ [chk (b59digits str)]).map (charOf c) := by
  simp [b59text]

theorem b59digits_length (str : List Byte) :
    (b59digits str).length = leadingZeros str + (Nat.digits radix (valBE str)).length := by
  simp [b59digits, digitsOf_eq]

theorem b59text_length (c : Config) (str : List Byte) :
    (b59text c str).length = (b59digits str).length + 1 := by
  simp [b59text]

/-- The value of a byte string is below 256 to the number of its bytes after the leading zeros. -/
theorem valBE_lt_of_leadingZeros (str : List Byte) :
    leadingZeros str ≤ str.length ∧ valBE str < 256 ^ (str.length - leadingZeros str) := by
  have hsplit := leadingZeros_split str
  have hlen := congrArg List.length hsplit
  rw [List.length_append, List.length_replicate] at hlen
  have hlt := valBE_lt (str.dropWhile (· == 0))
  rw [← valBE_replicate_append (leadingZeros str), ← hsplit] at hlt
  exact ⟨by omega, by rwa [hlen, Nat.add_sub_cancel_left]⟩

/-- Up to 46 bytes need at most 17 digits more than bytes. -/
theorem pow_bytes_le_pow_digits : ∀ n ≤ 46, 256 ^ n ≤ radix ^ (n + 17) := by decide

/-- A string of at most 46 bytes has at most 63 digits (42_base59.md R145). -/
theorem b59digits_length_le {str : List Byte} (h : str.length ≤ 46) :
    (b59digits str).length ≤ 63 := by
  obtain ⟨hk, hlt⟩ := valBE_lt_of_leadingZeros str
  have hpow := pow_bytes_le_pow_digits (str.length - leadingZeros str) (by omega)
  have hdigits := (Nat.digits_length_le_iff (by decide) _).2 (hlt.trans_le hpow)
  rw [b59digits_length]
  omega

/-- A string of 47 bytes or more that begins with 0xff has 64 digits or more (42_base59.md R145). -/
theorem le_b59digits_length {str : List Byte} (h : 46 ≤ str.length) :
    64 ≤ (b59digits (0xff :: str)).length := by
  have hval : 59 ^ 63 ≤ valBE (0xff :: str) :=
    calc 59 ^ 63 ≤ 255 * 256 ^ 46 := by decide
      _ ≤ 255 * 256 ^ str.length := Nat.mul_le_mul_left _ (Nat.pow_le_pow_right (by decide) h)
      _ ≤ valBE (0xff :: str) := (valBE_cons 0xff str).symm ▸ Nat.le_add_right _ _
  have hdigits : ¬ (Nat.digits radix (valBE (0xff :: str))).length ≤ 63 := fun hle =>
    absurd ((Nat.digits_length_le_iff (by decide) _).1 hle) (Nat.not_lt.2 hval)
  rw [b59digits_length]
  omega

/-! ## Digits of a text (42_base59.md R146, R147) -/

/-- The characters of digits are read as those digits. -/
theorem textDigits?_map_charOf {c : Config} (hwf : c.wf = true) {ds : List Nat}
    (h : ∀ d ∈ ds, d < radix) : textDigits? c (ds.map (charOf c)) = some ds := by
  obtain ⟨-, -, hlen, hnodup, -⟩ := wf_parts hwf
  rw [textDigits?_some, List.map_map]
  refine List.map_congr_left fun d hd => ?_
  have hlt : d < c.alphabet.length := hlen ▸ h d hd
  rw [Function.comp_apply, charOf_eq hlt, digitof?_getElem hnodup hlt]

/-- Character i of a text is read as digit i. -/
theorem digitof?_of_textDigits? {c : Config} {xs : List Byte} {ds : List Nat}
    (h : textDigits? c xs = some ds) {i : Nat} (hi : i < xs.length) (hi' : i < ds.length) :
    digitof? c xs[i] = some ds[i] := by
  simpa [hi, hi'] using congrArg (·[i]?) (textDigits?_some.1 h)

/-- In a well-formed block the digits before the last are below 59. -/
theorem lt_of_textDigits?_append {c : Config} (hwf : c.wf = true) {xs : List Byte} {D : List Nat}
    {d : Nat} (h : textDigits? c xs = some (D ++ [d])) : ∀ e ∈ D, e < radix := fun e he =>
  textDigits?_lt hwf h e (List.mem_append_left _ he)

/-- A text in the alphabet is the characters of its digits. -/
theorem map_charOf_of_textDigits? {c : Config} {xs : List Byte} {ds : List Nat}
    (h : textDigits? c xs = some ds) (hxs : ∀ x ∈ xs, x ∈ c.alphabet) : ds.map (charOf c) = xs := by
  refine List.ext_getElem (by simpa using textDigits?_length h) fun i hi hi' => ?_
  rw [List.length_map] at hi
  rw [List.getElem_map]
  exact charOf_digitof? (hxs _ (List.getElem_mem hi')) (digitof?_of_textDigits? h hi' hi)

/-- The digits of IBUF[0 .. ILEN-1], byte by byte. -/
theorem textDigits?_ibufBytes {s : State} {ds : List Nat} (hlen : s.ilen.toNat = ds.length)
    (h : ∀ i < s.ilen.toNat, digitof? s.cfg (s.ibufByte i) = ds[i]?) :
    textDigits? s.cfg (s.ibufBytes s.ilen.toNat) = some ds := by
  rw [textDigits?_some]
  refine List.ext_getElem (by simpa using hlen) fun i hi hi' => ?_
  rw [List.length_map] at hi'
  simpa [List.getElem?_eq_getElem hi'] using h i (hlen ▸ hi')

/-! ## The checksum (42_base59.md R143, R149) -/

/-- The last digit of a text is the checksum of the others when the sum of all digits and the count
of the others comes to 0 modulo 59. -/
theorem eq_chk_iff {D : List Nat} {d : Nat} (hd : d < radix) :
    d = chk D ↔ ((D ++ [d]).sum + D.length + D.length / radix) % radix = 0 := by
  simp only [chk, radix, List.sum_append, List.sum_singleton] at hd ⊢
  omega

/-- Replacing an entry of a list moves its sum by the difference. -/
theorem sum_set_add {ds : List Nat} {j : Nat} (hj : j < ds.length) (d : Nat) :
    (ds.set j d).sum + ds[j] = ds.sum + d := by
  have hsum := List.sum_set ds j ds[j]
  rw [List.set_getElem_self, if_pos hj] at hsum
  rw [List.sum_set, if_pos hj, hsum]
  omega

/-- A text whose checksum is right has a wrong one after one of its digits, the checksum's own
included, is replaced by another digit. -/
theorem ne_chk_of_set {D D' : List Nat} {d d' j : Nat} (hj : j < (D ++ [chk D]).length)
    (hset : (D ++ [chk D]).set j d = D' ++ [d']) (hold : ∀ x ∈ D ++ [chk D], x < radix)
    (hd : d < radix) (hne : (D ++ [chk D])[j] ≠ d) : d' ≠ chk D' := by
  have hlen : D.length = D'.length := by simpa using congrArg List.length hset
  have hd' : d' < radix := by
    rcases List.mem_or_eq_of_mem_set (hset ▸ List.mem_append_right D' List.mem_cons_self) with h | h
    · exact hold d' h
    · exact h ▸ hd
  have hsum := sum_set_add hj d
  have hright := (eq_chk_iff (chk_lt D)).1 rfl
  have hat := hold _ (List.getElem_mem hj)
  rw [hset] at hsum
  rw [Ne, eq_chk_iff hd', ← hlen]
  simp only [radix] at hright hat hd ⊢
  omega

/-! ## The ends of B59ENC and B59DEC -/

/-- A command that ends with ERR = 0 committed its writes. -/
theorem finish_success {s t : State} {x : Except Err State} (h : finish s x = .next t)
    (herr : t.err = 0) : ∃ u, x = .ok u ∧ t = succeed u := by
  cases x with
  | ok u => cases h; exact ⟨u, rfl, rfl⟩
  | error e => cases h; exact absurd herr (raise_code_le e).2

section
variable {s : State}

theorem exec_b59enc_ok {t : State} (h : exec .b59enc s = .next t) (herr : t.err = 0) :
    s.ilen.toNat ≤ bufBytes ∧ (b59text s.cfg (s.ibufBytes s.ilen.toNat)).length ≤ bufBytes
      ∧ t = succeed (produce (b59text s.cfg (s.ibufBytes s.ilen.toNat)) s) := by
  obtain ⟨u, hu, rfl⟩ := finish_success h herr
  obtain ⟨hle, hfits, rfl⟩ := b59Encode_ok hu
  exact ⟨hle, hfits, rfl⟩

theorem exec_b59dec_ok {t : State} (h : exec .b59dec s = .next t) (herr : t.err = 0) :
    s.ilen.toNat ≤ bufBytes
      ∧ ∃ D, textDigits? s.cfg (s.ibufBytes s.ilen.toNat) = some (D ++ [chk D])
        ∧ t = succeed (produce (b59bytes D) s) := by
  obtain ⟨u, hu, rfl⟩ := finish_success h herr
  obtain ⟨hle, hpos, ds, hds, hchk, rfl⟩ := b59Decode_ok hu
  obtain rfl | ⟨D, d, rfl⟩ := List.eq_nil_or_concat' ds
  · exact absurd (by simpa using (textDigits?_length hds).symm) hpos
  · rw [List.getLastD_concat, List.dropLast_concat] at hchk
    subst hchk
    exact ⟨hle, D, hds, by rw [List.dropLast_concat]⟩

theorem b59Decode_empty (h : s.ilen = 0) : b59Decode s = .error .invalidChecksum := by
  simp [b59Decode, h]

variable (hle : s.ilen.toNat ≤ bufBytes)
include hle

theorem b59Encode_fits (h : (b59text s.cfg (s.ibufBytes s.ilen.toNat)).length ≤ bufBytes) :
    b59Encode s = .ok (produce (b59text s.cfg (s.ibufBytes s.ilen.toNat)) s) := by
  simp only [b59Encode, gt_iff_lt, if_neg (Nat.not_lt.2 hle), if_neg (Nat.not_lt.2 h)]

theorem b59Encode_long (h : bufBytes < (b59text s.cfg (s.ibufBytes s.ilen.toNat)).length) :
    b59Encode s = .error .oversizedInput := by
  simp only [b59Encode, gt_iff_lt, if_neg (Nat.not_lt.2 hle), if_pos h]

theorem b59Decode_noDigit (h : textDigits? s.cfg (s.ibufBytes s.ilen.toNat) = none) :
    b59Decode s = .error .invalidCharacter := by
  have hpos : s.ilen.toNat ≠ 0 := fun hzero => by
    rw [hzero] at h
    cases h
  simp only [b59Decode, gt_iff_lt, if_neg (Nat.not_lt.2 hle), if_neg hpos, h]

theorem b59Decode_accepted {D : List Nat}
    (h : textDigits? s.cfg (s.ibufBytes s.ilen.toNat) = some (D ++ [chk D])) :
    b59Decode s = .ok (produce (b59bytes D) s) := by
  have hpos : s.ilen.toNat ≠ 0 := fun hzero => by
    simpa [hzero] using textDigits?_length h
  simp only [b59Decode, gt_iff_lt, if_neg (Nat.not_lt.2 hle), if_neg hpos, h, List.getLastD_concat,
    List.dropLast_concat, ne_eq, not_true, if_false]

theorem b59Decode_wrongChecksum {D : List Nat} {d : Nat}
    (h : textDigits? s.cfg (s.ibufBytes s.ilen.toNat) = some (D ++ [d])) (hd : d ≠ chk D) :
    b59Decode s = .error .invalidChecksum := by
  have hpos : s.ilen.toNat ≠ 0 := fun hzero => by
    simpa [hzero] using textDigits?_length h
  simp only [b59Decode, gt_iff_lt, if_neg (Nat.not_lt.2 hle), if_neg hpos, h, List.getLastD_concat,
    List.dropLast_concat, if_pos hd]

end

/-! ## A changed character (42_base59.md R149) -/

/-- Changing a byte of IBUF before n changes that entry of IBUF[0 .. n-1]. -/
theorem ibufBytes_put (s : State) (j : Nat) (x : Byte) (n : Nat) :
    ({ s with ibuf := s.ibuf.put j x } : State).ibufBytes n = (s.ibufBytes n).set j x := by
  refine List.ext_getElem (by simp) fun i hi hi' => ?_
  rw [List.getElem_set]
  simp only [ibufBytes_getElem, State.ibufByte, Memory.byte?_put, eq_comm (a := i)]
  split <;> rfl

/-- A character read as the digit d puts d in its place among the digits of a text. -/
theorem textDigits?_set {c : Config} {xs : List Byte} {ds : List Nat} {x : Byte} {d : Nat}
    (h : textDigits? c xs = some ds) (j : Nat) (hx : digitof? c x = some d) :
    textDigits? c (xs.set j x) = some (ds.set j d) := by
  rw [textDigits?_some, List.map_set, List.map_set, textDigits?_some.1 h, hx]

end Sys2Proof.Machine
end

section
/-! PROOF. The statements of 42_base59.md: each settled from the laws of the B59 unit. -/

namespace Sys2Proof.Machine

/-! ## B59ENC -/

/-- Settles O39: the text is b59text, and its length decides which end is taken. -/
theorem b59encWritesTheText : Obligations.B59encWritesTheText := by
  intro s str D T hle hstr hD hT
  have hdigits : b59digits str = D := by rw [hD, b59digits, digitsOf_eq]; rfl
  have htext : b59text s.cfg (s.ibufBytes s.ilen.toNat) = T := by
    rw [hT, ← hdigits, ← hstr]; rfl
  constructor
  · intro hfits
    refine ⟨_, congrArg (finish s) (b59Encode_fits hle (htext ▸ hfits)), ?_⟩
    rw [htext]
    exact succeed_produce_effect hfits s
  · exact fun hlong => congrArg (finish s) (b59Encode_long hle (htext ▸ hlong))

/-- The reset state with 0xff in the first byte of IBUF, every other byte free, and n in ILEN. -/
def firstByteFF (n : Nat) : State :=
  { State.reset with ibuf := [(0, 0xff)], ilen := BitVec.ofNat 7 n }

/-- Settles O40: 46 bytes give at most 63 digits, and 47 bytes that begin with 0xff give 64. -/
theorem b59encOf46BytesAlwaysFits : Obligations.B59encOf46BytesAlwaysFits := by
  refine ⟨fun s hle => ?_, fun n hlo hhi => ⟨firstByteFF n, ?_⟩⟩
  · have hfits : (b59text s.cfg (s.ibufBytes s.ilen.toNat)).length ≤ bufBytes := by
      rw [b59text_length]
      exact Nat.succ_le_succ (b59digits_length_le (by simpa using hle))
    refine ⟨_, congrArg (finish s) (b59Encode_fits (hle.trans (by decide)) hfits), rfl, ?_⟩
    exact (Nat.mod_le _ _).trans hfits
  · have hilen : (firstByteFF n).ilen.toNat = n := Nat.mod_eq_of_lt (by omega)
    refine ⟨hilen, congrArg (finish (firstByteFF n)) (b59Encode_long (hilen.trans_le hhi) ?_)⟩
    have hfirst : (firstByteFF n).ibufBytes n = 0xff :: ((firstByteFF n).ibufBytes n).tail :=
      ibufBytes_eq_cons _ (by omega)
    rw [hilen, b59text_length, hfirst]
    exact Nat.lt_succ_of_le (le_b59digits_length (by simp; omega))

/-! ## B59DEC -/

/-- Settles O41: in a well-formed block the digits are below 59, so the bytes fit. -/
theorem b59decWritesTheBytes : Obligations.B59decWritesTheBytes := by
  intro s D out hwf hlen hle hchars hout
  have hdigits : textDigits? s.cfg (s.ibufBytes s.ilen.toNat) = some (D ++ [chk D]) :=
    textDigits?_ibufBytes (by simpa using hlen) hchars
  have hbytes : b59bytes D = out := by rw [hout, b59bytes, valDigits_eq]; rfl
  have hbound : out.length ≤ D.length :=
    hbytes ▸ b59bytes_length_le D (lt_of_textDigits?_append hwf hdigits)
  obtain ⟨hframe, hrest⟩ := succeed_produce_effect (out := out) (by simp only [bufBytes]; omega) s
  refine ⟨_, congrArg (finish s) (b59Decode_accepted hle hdigits), ?_⟩
  rw [hbytes]
  exact ⟨hframe, hbound, hrest⟩

/-- Settles O42: one check of R146 after the other. -/
theorem b59decErrorsInOrder : Obligations.B59decErrorsInOrder := by
  refine fun s => ⟨fun hbig => ?_, fun hzero => ?_, fun hle => ⟨fun i hi hnone => ?_,
    fun D d hlen hne hchars => ?_⟩⟩
  · exact congrArg (finish s) (b59Decode_oversized hbig)
  · exact congrArg (finish s) (b59Decode_empty hzero)
  · have hmem : s.ibufByte i ∈ s.ibufBytes s.ilen.toNat := List.mem_map_of_mem (List.mem_range.2 hi)
    exact congrArg (finish s) (b59Decode_noDigit hle (textDigits?_none.2 ⟨_, hmem, hnone⟩))
  · have hdigits := textDigits?_ibufBytes (ds := D ++ [d]) (by simpa using hlen) hchars
    exact congrArg (finish s) (b59Decode_wrongChecksum hle hdigits hne)

/-! ## Round trips (42_base59.md R148) -/

/-- Settles O43: the text is read as the digits it was made of, and their bytes are the input. -/
theorem b59decUndoesB59enc : Obligations.B59decUndoesB59enc := by
  intro s t u hwf hexec herr hcfg hilen hbytes
  obtain ⟨hle, hfits, rfl⟩ := exec_b59enc_ok hexec herr
  obtain ⟨hlen, hread⟩ := ibufBytes_of_output hfits hilen hbytes
  have hdigits := textDigits?_map_charOf hwf
    (ds := b59digits (s.ibufBytes s.ilen.toNat) ++ [chk (b59digits (s.ibufBytes s.ilen.toNat))])
    (by simpa [or_imp, forall_and] using ⟨b59digits_lt _, chk_lt _⟩)
  rw [← b59text_eq_map, ← hread, ← hcfg] at hdigits
  have hdec := b59Decode_accepted (hlen.trans_le hfits) hdigits
  rw [b59bytes_b59digits] at hdec
  exact ⟨_, congrArg (finish u) hdec, rfl, obuf_of_ibufBytes hle u⟩

/-- Settles O44: the bytes of the digits encode to those digits, and a text in the alphabet is the
characters of its digits. -/
theorem b59encUndoesB59dec : Obligations.B59encUndoesB59dec := by
  intro s t u hwf hexec herr halpha hcfg hilen hbytes
  obtain ⟨hle, D, hdigits, rfl⟩ := exec_b59dec_ok hexec herr
  have hD := lt_of_textDigits?_append hwf hdigits
  have hD1 : D.length + 1 = s.ilen.toNat := by simpa using textDigits?_length hdigits
  have hout := b59bytes_length_le D hD
  obtain ⟨hlen, hread⟩ := ibufBytes_of_output (by omega) hilen hbytes
  have htext : b59text u.cfg (u.ibufBytes u.ilen.toNat) = s.ibufBytes s.ilen.toNat := by
    rw [hread, hcfg, b59text_eq_map, b59digits_b59bytes D hD]
    exact map_charOf_of_textDigits? hdigits
      (List.forall_mem_map.2 fun i hi => halpha i (List.mem_range.1 hi))
  have henc := b59Encode_fits (s := u) (by omega) (by rw [htext]; simpa using hle)
  rw [htext] at henc
  exact ⟨_, congrArg (finish u) henc, rfl, obuf_of_ibufBytes hle u⟩

/-! ## A changed character (42_base59.md R149) -/

/-- Settles O45: the new character is no digit, or the digit that stood there, or another digit,
which the sum of the digits shows. -/
theorem changedCharacterIsDetected : Obligations.ChangedCharacterIsDetected := by
  intro s t u j x hwf hexec herr hj hu
  obtain ⟨hle, D, hdigits, rfl⟩ := exec_b59dec_ok hexec herr
  have hread : u.ibufBytes u.ilen.toNat = (s.ibufBytes s.ilen.toNat).set j x := by
    rw [hu]; exact ibufBytes_put s j x _
  have hcfg : u.cfg = s.cfg := by rw [hu]
  have hule : u.ilen.toNat ≤ bufBytes := by rw [hu]; exact hle
  have hjs : j < (s.ibufBytes s.ilen.toNat).length := (ibufBytes_length s _).symm ▸ hj
  have hjD : j < (D ++ [chk D]).length := (textDigits?_length hdigits).symm ▸ hjs
  have hstood := digitof?_of_textDigits? hdigits hjs hjD
  rw [ibufBytes_getElem] at hstood
  have hreplaced {d : Nat} (hd : digitof? s.cfg x = some d) :
      textDigits? u.cfg (u.ibufBytes u.ilen.toNat) = some ((D ++ [chk D]).set j d) := by
    rw [hread, hcfg]
    exact textDigits?_set hdigits j hd
  refine ⟨fun hnone => ?_, fun hsame => ?_, fun d hd hne => ?_⟩
  · have hmem : x ∈ u.ibufBytes u.ilen.toNat := hread ▸ List.mem_set hjs x
    exact congrArg (finish u) (b59Decode_noDigit hule
      (textDigits?_none.2 ⟨x, hmem, hcfg ▸ hnone⟩))
  · have hdigits' := hreplaced (hsame.trans hstood)
    rw [List.set_getElem_self] at hdigits'
    exact ⟨_, congrArg (finish u) (b59Decode_accepted hule hdigits'), rfl, rfl,
      fun _ hi => obufByte_produce_eq (b59bytes D) s u hi⟩
  · obtain hnil | ⟨D', d', hset⟩ := List.eq_nil_or_concat' ((D ++ [chk D]).set j d)
    · simp at hnil
    have hdigits' := hreplaced hd
    rw [hset] at hdigits'
    have hwrong : d' ≠ chk D' := ne_chk_of_set hjD hset (textDigits?_lt hwf hdigits)
      (digitof?_lt hwf hd) fun heq => hne (heq ▸ hstood)
    exact congrArg (finish u) (b59Decode_wrongChecksum hule hdigits' hwrong)

end Sys2Proof.Machine
end

section
/-! PROOF. The statement of 43_control.md, settled from the codec of the command word and the ends of a
command. -/

namespace Sys2Proof.Machine

theorem encode_nop : encode .nop = 0 := rfl

theorem encode_clrerr : encode .clrerr = 0x3F := rfl

/-- NOP ends as every success does and has no output (43_control.md R160). -/
theorem exec_nop (s : State) : exec .nop s = .next (succeed s) := rfl

/-- CLRERR ends in the one write of its own (43_control.md R161). -/
theorem exec_clrerr (s : State) : exec .clrerr s = .next (clearStatus s) := rfl

/-- Settles O31: a word of NOP is its encoding, the two commands end in one write of STATUS each, and
no other end of a command than CLRERR's clears STICKY. -/
theorem nopAndClrerrWriteStatusOnly : Obligations.NopAndClrerrWriteStatusOnly := by
  refine ⟨encode_nop, fun c hc => ?_, encode_clrerr, fun s => ⟨exec_nop s, exec_clrerr s, ?_⟩⟩
  · exact (encode_of_decode hc).trans encode_nop
  · exact fun _ _ hexec hs ht => eq_clrerr_of_exec_clears_sticky hexec hs ht

end Sys2Proof.Machine
end

section
/-! PROOF. The statements of 60_exceptions.md: an illegal word's raise, the ends of a command, and runs
that nothing stops. -/

namespace Sys2Proof.Machine

/-! ## A word that is no command (60_exceptions.md R171) -/

theorem performCommand_illegal {v : Word} (h : legalWord v = false) (s : State) :
    performCommand v s = .next (raiseErr .illegalCommand s) := by
  obtain ⟨t, ht, -⟩ := performCommand_ends v s
  obtain rfl | ⟨i, hi, -⟩ := performCommand_cases ht
  · exact ht
  · have hlegal : legalWord v = true := (legalWordsAreTheDecodedWords v).2 ⟨i, hi⟩
    exact absurd (h.symm.trans hlegal) nofun

/-- Settles O7: the served write stores the word and performs it, and it is no command. -/
theorem illegalWordIsStoredAndRaised : Obligations.IllegalWordIsStoredAndRaised := by
  intro s v hr hv
  calc issue (cmdWrite v) s = serveEvent (cmdWrite v) s := issue_eq _ s
    _ = withResponse .done (performCommand v { s with cmd := v }) := serveEvent_cmdWrite v hr
    _ = withResponse .done (.next (raiseErr .illegalCommand { s with cmd := v })) := by
        rw [performCommand_illegal hv]

/-! ## Runs (60_exceptions.md R174) -/

theorem step_next (s : State) : ∃ t, step s = .next t := by
  rcases hq : s.hostQueue with _ | ⟨e, rest⟩
  · exact ⟨s, stepHost_nil hq⟩
  · obtain ⟨t, ht⟩ := serveEvent_next e { s with hostQueue := rest }
    exact ⟨t, (stepHost_cons hq).trans ht⟩

/-- Settles O10, by induction on the number of steps. -/
theorem runsNeverStop : Obligations.RunsNeverStop := by
  intro s n
  induction n generalizing s with
  | zero => exact ⟨s, rfl⟩
  | succ n ih =>
    obtain ⟨t, ht⟩ := step_next s
    obtain ⟨u, hu⟩ := ih t
    exact ⟨u, (run_succ_of_step n ht).trans hu⟩

/-! ## The status update at the end of a command (60_exceptions.md R172) -/

/-- Settles O46, by the three ways a command ends. -/
theorem statusUpdateAtTheEndOfACommand : Obligations.StatusUpdateAtTheEndOfACommand := by
  intro i s
  by_cases hi : i = .clrerr
  · subst hi
    exact ⟨_, exec_clrerr s, fun _ => rfl, fun hne => absurd rfl hne, fun herr => absurd rfl herr⟩
  obtain ⟨e, hexec, -⟩ | ⟨u, -, hexec, -⟩ := exec_pair hi (.refl s)
  · obtain ⟨hle, hne⟩ := raise_code_le e
    exact ⟨_, hexec, fun hc => absurd hc hi, fun _ hzero => absurd hzero hne, fun _ => ⟨hle, rfl⟩⟩
  · exact ⟨_, hexec, fun hc => absurd hc hi, fun _ _ => u.apply_sticky s,
      fun herr => absurd rfl herr⟩

end Sys2Proof.Machine
end

section
/-! PROOF. The statements of 70_reset_and_hazards.md: what the two events of the reset input do, by the
level they find it at, and accesses under reset. -/

namespace Sys2Proof.Machine

/-! ## The events of the reset input (70_reset_and_hazards.md R190, log entry 7) -/

theorem assertReset_of_inReset {s : State} (hr : s.inReset = true) :
    assertReset s = clearRegisters s := if_pos hr

theorem assertReset_of_released {s : State} (hr : s.inReset = false) :
    assertReset s = { drawBuffers (clearRegisters s) with inReset := true } :=
  if_neg (Bool.eq_false_iff.1 hr)

theorem releaseReset_of_inReset {s : State} (hr : s.inReset = true) :
    releaseReset s = { clearRegisters s with inReset := false } := if_pos hr

theorem releaseReset_of_released {s : State} (hr : s.inReset = false) : releaseReset s = s :=
  if_neg (Bool.eq_false_iff.1 hr)

@[simp] theorem assertReset_inReset (s : State) : (assertReset s).inReset = true := by
  cases hr : s.inReset with
  | false => rw [assertReset_of_released hr]
  | true => rwa [assertReset_of_inReset hr]

/-- Cleared registers are what reset asks for, whatever the level of the input. -/
theorem clearRegisters_resetInv (s : State) (level : Bool) :
    ({ clearRegisters s with inReset := level } : State).resetInv := fun _ =>
  ⟨rfl, rfl, rfl, rfl, rfl, rfl, rfl, rfl, rfl, rfl⟩

/-- The assertion clears every register, whatever level of the input it finds. -/
theorem assertReset_resetInv (s : State) : (assertReset s).resetInv := by
  cases hr : s.inReset with
  | false => rw [assertReset_of_released hr]; exact clearRegisters_resetInv (drawBuffers s) true
  | true => rw [assertReset_of_inReset hr]; exact clearRegisters_resetInv s s.inReset

@[simp] theorem assertReset_responses (s : State) : (assertReset s).responses = s.responses := by
  cases hr : s.inReset with
  | false => rw [assertReset_of_released hr]; rfl
  | true => rw [assertReset_of_inReset hr]; rfl

/-! ## The buffers under reset (log entry 2) -/

/-- The two states read the same buffer bytes, and no byte was drawn between them. -/
def KeepsBuffers (s t : State) : Prop :=
  t.draws = s.draws ∧ ∀ i, t.ibufByte i = s.ibufByte i ∧ t.obufByte i = s.obufByte i

theorem keepsBuffers_clearRegisters (s : State) (level : Bool) :
    KeepsBuffers s { clearRegisters s with inReset := level } := ⟨rfl, fun _ => ⟨rfl, rfl⟩⟩

/-- An assertion that finds reset asserted draws nothing. -/
theorem keepsBuffers_assertReset {s : State} (hr : s.inReset = true) :
    KeepsBuffers s (assertReset s) := by
  rw [assertReset_of_inReset hr]
  exact keepsBuffers_clearRegisters s s.inReset

/-- The release draws nothing. -/
theorem keepsBuffers_releaseReset (s : State) : KeepsBuffers s (releaseReset s) := by
  cases hr : s.inReset with
  | false => rw [releaseReset_of_released hr]; exact ⟨rfl, fun _ => ⟨rfl, rfl⟩⟩
  | true => rw [releaseReset_of_inReset hr]; exact keepsBuffers_clearRegisters s false

/-- A buffer with no written byte reads its drawn ones. -/
theorem drawBuffers_ibufByte (s : State) (i : Nat) :
    (drawBuffers s).ibufByte i = Config.freeByte (s.draws + 128 + i) := rfl

theorem drawBuffers_obufByte (s : State) (i : Nat) :
    (drawBuffers s).obufByte i = Config.freeByte (s.draws + 192 + i) := rfl

/-- An assertion that finds reset released draws every buffer byte anew. -/
theorem assertReset_draws_anew {s : State} (hr : s.inReset = false) :
    (assertReset s).draws = s.draws + 128
      ∧ (∀ i, (assertReset s).ibuf.byte? i = none ∧ (assertReset s).obuf.byte? i = none)
      ∧ ∀ i, (assertReset s).ibufByte i = Config.freeByte (s.draws + 128 + i)
          ∧ (assertReset s).obufByte i = Config.freeByte (s.draws + 192 + i) := by
  rw [assertReset_of_released hr]
  exact ⟨rfl, fun _ => ⟨rfl, rfl⟩, fun i =>
    ⟨drawBuffers_ibufByte (clearRegisters s) i, drawBuffers_obufByte (clearRegisters s) i⟩⟩

/-- The command that reset aborts leaves the asserted state and one answer of the port (log entry 8). -/
theorem issue_abortedCommand (v : Word) (s : State) :
    issue (.abortedCommand v) s
      = .next { assertReset s with responses := .busError :: s.responses } := by
  calc issue (.abortedCommand v) s
      = .next { assertReset s with responses := .busError :: (assertReset s).responses } :=
        issue_eq (.abortedCommand v) s
    _ = .next { assertReset s with responses := .busError :: s.responses } := by
        rw [assertReset_responses]

/-! ## The obligations -/

/-- Settles O53, by the level of the reset input that the assertion finds. -/
theorem assertedResetGivesTheResetValues : Obligations.AssertedResetGivesTheResetValues := by
  intro s v
  have hin := assertReset_inReset s
  obtain ⟨ha, hb, hr, hrem, hcmd, herr, hsticky, hilen, holen, hclen⟩ := assertReset_resetInv s hin
  refine ⟨assertReset s, issue_eq .assertReset s, ha, hb, hr, hrem, hcmd, herr, hsticky, hilen, holen,
    hclen, hin, assertReset_cfg s, fun hreleased => ?_, keepsBuffers_assertReset,
    issue_abortedCommand v s, releaseReset s, issue_eq .releaseReset s, keepsBuffers_releaseReset s⟩
  obtain ⟨hdraws, hnone, hbytes⟩ := assertReset_draws_anew hreleased
  exact ⟨hdraws, hnone, fun i _ => hbytes i⟩

/-- Settles O54: under reset no access is served, and the release clears the registers once more. -/
theorem accessesUnderResetTakeABusError : Obligations.AccessesUnderResetTakeABusError := by
  intro s hr
  have hrelease : issue .releaseReset s = .next { clearRegisters s with inReset := false } :=
    (issue_eq .releaseReset s).trans (congrArg _ (releaseReset_of_inReset hr))
  refine ⟨fun x => ?_, _, hrelease, rfl, rfl, rfl, rfl, rfl, rfl, rfl, rfl, rfl, rfl, rfl, rfl⟩
  calc issue (.access x) s = serveAccess x s := issue_eq (.access x) s
    _ = .next (respond .busError s) := serveAccess_refused (.inl hr)

end Sys2Proof.Machine
end
